-- ==== Sys2Proof/Word.lean ====
section
/-!
DEFINITION. The plainest types of the Dramasim core: a memory address and a register number. The content of an
accumulator or of a memory cell is one signed number (`10_state.md` R10, R19). The machine is a decimal machine
without bit fields (`00_scope.md` R6: "All values are mathematical integers"), so a machine word is an `Int`; its
range (R11) is `Config.valMin` to `Config.valMax`, and that every word held lies in it is the invariant
`Machine.State.Valid` of Safety.lean (log 18).
-/

namespace Sys2Proof

/-- The number of a memory cell, and the type of the instruction pointer: 0 to 9999 (`20_memory.md` R30,
`10_state.md` R14). -/
abbrev Addr := Fin 10000

/-- The number of an accumulator, 0 to 9 (`10_state.md` R10). -/
abbrev Reg := Fin 10

end Sys2Proof
end

