-- ==== Sys2Proof/Config.lean ====
section
/-!
DEFINITION. The implementation parameters of `00_scope.md` R5 at the value R5 gives this hardware, but for the
numeric encodings, which stand with the decoder in Decode.lean.
-/

namespace Sys2Proof.Config

/-- `VAL_MIN = -2^63`, the least value an accumulator or a cell holds (R5, R11; decision D1 leaves it a named
parameter with this default). DESIGN CHOICE: log 1; unsafe. -/
def valMin : Int := -9223372036854775808

/-- `VAL_MAX = 2^63 - 1`, the greatest value an accumulator or a cell holds (R5, R11, decision D1).
DESIGN CHOICE: log 1; unsafe. -/
def valMax : Int := 9223372036854775807

/-- `POSTDEC_DELTA = +1`: what post-decrement indexation adds to the index register (R5, R107; decision D9 leaves
it a named parameter with this default; the other admissible value is -1). DESIGN CHOICE: log 2; unsafe. -/
def postDecDelta : Int := 1

/-- `SENTINEL`, the digit the assembler writes in a field that does not apply (R5, R66). -/
def sentinel : Fin 10 := 9

/-- `SP_DATA`, the register the macros BST and HST use (R5, R12). -/
def spData : Reg := 8

/-- `SP_CALL`, the register SBR and KTG use (R5, R12). -/
def spCall : Reg := 9

/-- `MAX_CYCLES`, the host's optional cycle guard: none (R5, `10_state.md` R28, decision D18). -/
def maxCycles : Option Nat := none

end Sys2Proof.Config
end

