-- ==== Sys2Proof/Syntax.lean ====
section
/-!
DEFINITION. The instruction set as syntax: the closed set of opcodes, the operand forms, the six fields of a word,
and `Instr`, one constructor for each row of spec/opcode_table.json.
-/

namespace Sys2Proof

/-- The 17 known opcodes, in the table's order (`30_encoding.md` R62, R68). -/
inductive Opcode where
  | hia | big | opt | aft | ver | del | mod | vgl | spr | vsp | sbr | ktg | dru | nwl | drs | nop | stp
  deriving DecidableEq, Repr

/-- The three classes of opcodes (`30_encoding.md` R60). -/
inductive OpcodeClass where
  /-- accepts the suffixes `.d .i .w .a` -/
  | general
  /-- accepts `.d .i`; consumes its resolved operand as an address -/
  | address
  /-- takes no operand -/
  | zeroOperand
  deriving DecidableEq, Repr

/-- Mode-1, how the adjusted operand is read (`30_encoding.md` R63). -/
inductive Interp where
  /-- the adjusted operand itself -/
  | value
  /-- `address_of` of it, no memory access -/
  | address
  /-- the content of that cell -/
  | direct
  /-- the content of the cell that cell points to -/
  | indirect
  deriving DecidableEq, Repr

/-- Mode-2 together with the index register it uses (`30_encoding.md` R64). Without indexation the idx digit of
the word is ignored (R67 (c)), so `none` carries no register. -/
inductive Indexation where
  | none
  | plain (k : Reg)
  | preInc (k : Reg)
  | postInc (k : Reg)
  | preDec (k : Reg)
  | postDec (k : Reg)
  deriving DecidableEq, Repr

/-- The operand of an operand-taking instruction: mode-1, mode-2 with its register, and the signed operand field
(`30_encoding.md` R51, R59). -/
structure Operand where
  /-- mode-1 -/
  interp : Interp
  /-- mode-2 and the index register -/
  index : Indexation
  /-- the operand field, read signed, in `[-5000, 4999]` for a well-formed instruction -/
  disp : Int
  deriving DecidableEq, Repr

/-- The six predicates of the conditional jump (`30_encoding.md` R65). -/
inductive Predicate where
  | equal | notNegative | notPositive | positive | negative | notEqual
  deriving DecidableEq, Repr

/-- The six fields of an instruction word (`30_encoding.md` R51). The four single digits name a digit by type; the
opcode and the operand are numbers, whose valid range is `Fields.valid`. -/
structure Fields where
  op : Nat
  m1 : Fin 10
  m2 : Fin 10
  acc : Fin 10
  idx : Fin 10
  opnd : Int
  deriving DecidableEq, Repr

/-- The instructions: one constructor for each row of spec/opcode_table.json, in its order. A digit the hardware
ignores (`30_encoding.md` R67: the acc digit of SPR and SBR, all eight low digits of a zero-operand word) is no
argument; VGL's acc digit is decoded but not used (R60) and is kept. -/
inductive Instr where
  /-- load accumulator (`41_load_store.md` R120) -/
  | hia (a : Reg) (o : Operand)
  /-- store accumulator (R121) -/
  | big (a : Reg) (o : Operand)
  /-- add (`42_arithmetic.md` R125) -/
  | opt (a : Reg) (o : Operand)
  /-- subtract (R126) -/
  | aft (a : Reg) (o : Operand)
  /-- multiply (R127) -/
  | ver (a : Reg) (o : Operand)
  /-- divide (R128) -/
  | del (a : Reg) (o : Operand)
  /-- modulo (R129) -/
  | mod (a : Reg) (o : Operand)
  /-- compare-like: the condition code of the operand (`43_compare_branch.md` R135) -/
  | vgl (a : Reg) (o : Operand)
  /-- jump (R136) -/
  | spr (o : Operand)
  /-- conditional jump (R137) -/
  | vsp (p : Predicate) (o : Operand)
  /-- subroutine call (`44_subroutine.md` R142) -/
  | sbr (o : Operand)
  /-- subroutine return (R143) -/
  | ktg
  /-- print accumulator 0 (`45_system_io.md` R148) -/
  | dru
  /-- print newline (R149) -/
  | nwl
  /-- structured print, unimplemented (R150) -/
  | drs
  /-- no operation (R147) -/
  | nop
  /-- halt (R151) -/
  | stp
  /-- push, a macro of BIG (`41_load_store.md` R122) -/
  | bst (n : Reg)
  /-- pop, a macro of HIA (R123) -/
  | hst (n : Reg)
  deriving DecidableEq, Repr

/-- What is wrong with a word that is fetched as an instruction (`30_encoding.md` R68 to R71,
`40_cycle_decode_resolve.md` R102, R103): the decoder's four rejections by name. -/
inductive DecodeError where
  /-- not a ten-digit word, or an opcode outside the 17 (R102) -/
  | unknownOpcode
  /-- mode-2 digit outside 1 to 6 (R103) -/
  | unknownMode2
  /-- mode-1 digit outside 1 to 4 (R103) -/
  | unknownMode1
  /-- predicate selector of VSP outside 1 to 6 (R103) -/
  | badPredicate
  deriving DecidableEq, Repr

/-- The operand `0(-R8)` in the address interpretation, which BST expands to (`30_encoding.md` R92). -/
def pushOperand : Operand := ⟨.address, .preDec Config.spData, 0⟩

/-- The operand `0(R8+)` in the direct interpretation, which HST expands to (`30_encoding.md` R92). -/
def popOperand : Operand := ⟨.direct, .postInc Config.spData, 0⟩

/-- The core instruction a macro expands to; a core instruction is itself (`30_encoding.md` R92). -/
def Instr.expand : Instr → Instr
  | .bst n => .big n pushOperand
  | .hst n => .hia n popOperand
  | .hia a o => .hia a o
  | .big a o => .big a o
  | .opt a o => .opt a o
  | .aft a o => .aft a o
  | .ver a o => .ver a o
  | .del a o => .del a o
  | .mod a o => .mod a o
  | .vgl a o => .vgl a o
  | .spr o => .spr o
  | .vsp p o => .vsp p o
  | .sbr o => .sbr o
  | .ktg => .ktg
  | .dru => .dru
  | .nwl => .nwl
  | .drs => .drs
  | .nop => .nop
  | .stp => .stp

/-- The opcode whose function code the instruction's word carries (`30_encoding.md` R61, R62; R92 for the macros). -/
def Instr.opcode : Instr → Opcode
  | .hia _ _ => .hia
  | .big _ _ => .big
  | .opt _ _ => .opt
  | .aft _ _ => .aft
  | .ver _ _ => .ver
  | .del _ _ => .del
  | .mod _ _ => .mod
  | .vgl _ _ => .vgl
  | .spr _ => .spr
  | .vsp _ _ => .vsp
  | .sbr _ => .sbr
  | .ktg => .ktg
  | .dru => .dru
  | .nwl => .nwl
  | .drs => .drs
  | .nop => .nop
  | .stp => .stp
  | .bst _ => .big
  | .hst _ => .hia

/-- The operand an instruction resolves before its operation; none for the zero-operand class (`30_encoding.md`
R60). A macro's is the operand of its expansion (R92). -/
def Instr.operand? : Instr → Option Operand
  | .hia _ o => some o
  | .big _ o => some o
  | .opt _ o => some o
  | .aft _ o => some o
  | .ver _ o => some o
  | .del _ o => some o
  | .mod _ o => some o
  | .vgl _ o => some o
  | .spr o => some o
  | .vsp _ o => some o
  | .sbr o => some o
  | .ktg => none
  | .dru => none
  | .nwl => none
  | .drs => none
  | .nop => none
  | .stp => none
  | .bst _ => some pushOperand
  | .hst _ => some popOperand

end Sys2Proof
end

