-- ==== Sys2Proof/WellFormed.lean ====
section
/-!
DEFINITION. Which terms of `Instr` stand for a word: the operand field's range, and one name for each word.
-/

namespace Sys2Proof

/-- The operand field holds `[-5000, 4999]` (`30_encoding.md` R57, R59). -/
def Operand.inRange (o : Operand) : Bool := decide (-5000 ≤ o.disp) && decide (o.disp ≤ 4999)

/-- A term is well formed when its operand field is in range, and when it is not the core spelling of a word that
another row of the opcode table names: `BIG Rn, 0(-R8)` is BST and `HIA Rn, 0(R8+)` is HST (`30_encoding.md` R92).
DESIGN CHOICE: log 8; safe. -/
def Instr.wellFormed : Instr → Bool
  | .hia _ o => o.inRange && decide (o ≠ popOperand)
  | .big _ o => o.inRange && decide (o ≠ pushOperand)
  | .opt _ o => o.inRange
  | .aft _ o => o.inRange
  | .ver _ o => o.inRange
  | .del _ o => o.inRange
  | .mod _ o => o.inRange
  | .vgl _ o => o.inRange
  | .spr o => o.inRange
  | .vsp _ o => o.inRange
  | .sbr o => o.inRange
  | .ktg => true
  | .dru => true
  | .nwl => true
  | .drs => true
  | .nop => true
  | .stp => true
  | .bst _ => true
  | .hst _ => true

/-- A valid field tuple (`30_encoding.md` R57); the ranges of the four single digits are in their type. -/
def Fields.valid (f : Fields) : Bool :=
  decide (f.op ≤ 99) && decide (-5000 ≤ f.opnd) && decide (f.opnd ≤ 4999)

end Sys2Proof
end

