-- ==== Sys2Proof/Decode.lean ====
section
/-!
DEFINITION. The codec of machine words (`30_encoding.md` R51 to R58), the encoding tables (R62 to R65), the
decoder, total on every word (R61, R67 to R71, `40_cycle_decode_resolve.md` R102 to R104), and the encoder.
-/

namespace Sys2Proof

/-- `address_of(n) = n mod 10000`, the non-negative remainder (R54). -/
def addressOf (n : Int) : Addr :=
  ⟨(n % 10000).toNat, by omega⟩

/-- `expand_address(u)`: `u` below 5000, else `u - 10000` (R55). -/
def expandAddress (u : Addr) : Int :=
  if u.val < 5000 then (u.val : Int) else (u.val : Int) - 10000

/-- The digit of weight `weight` of a non-negative number (`00_scope.md` R6). -/
def digitAt (weight u : Nat) : Fin 10 := ⟨u / weight % 10, Nat.mod_lt _ (by decide)⟩

/-- `pack` (R52): the six fields as one decimal number; the operand is reduced by `address_of`. -/
def pack (f : Fields) : Int :=
  (f.op : Int) * 10 ^ 8 + (f.m1.val : Int) * 10 ^ 7 + (f.m2.val : Int) * 10 ^ 6 + (f.acc.val : Int) * 10 ^ 5
    + (f.idx.val : Int) * 10 ^ 4 + ((addressOf f.opnd).val : Int)

/-- The fields of an unsigned ten-digit number (R51, R53). -/
def fieldsOf (u : Nat) : Fields :=
  { op := u / 10 ^ 8
    m1 := digitAt (10 ^ 7) u
    m2 := digitAt (10 ^ 6) u
    acc := digitAt (10 ^ 5) u
    idx := digitAt (10 ^ 4) u
    opnd := expandAddress (addressOf u) }

/-- `unpack` (R53): `none` is the rule's `NotAWord`; a negative word is read through its ten's complement (R58). -/
def unpack (w : Int) : Option Fields :=
  if w ≤ -(10 ^ 10) ∨ 10 ^ 10 ≤ w then none
  else if 0 ≤ w then some (fieldsOf w.toNat)
  else some (fieldsOf (w + 10 ^ 10).toNat)

/-- The function codes (R62). -/
def Opcode.code : Opcode → Nat
  | .hia => 11
  | .big => 12
  | .opt => 21
  | .aft => 22
  | .ver => 23
  | .del => 24
  | .mod => 25
  | .vgl => 31
  | .spr => 32
  | .vsp => 33
  | .sbr => 41
  | .ktg => 42
  | .dru => 72
  | .nwl => 73
  | .drs => 74
  | .nop => 98
  | .stp => 99

/-- The closed list of known opcodes (R62, R68). -/
def Opcode.all : List Opcode :=
  [.hia, .big, .opt, .aft, .ver, .del, .mod, .vgl, .spr, .vsp, .sbr, .ktg, .dru, .nwl, .drs, .nop, .stp]

/-- The opcode of a function code; every other number is illegal (R61, R68). -/
def Opcode.ofCode (n : Nat) : Option Opcode := Opcode.all.find? fun c => c.code == n

/-- The class of each opcode (R60). -/
def Opcode.kind : Opcode → OpcodeClass
  | .hia => .general
  | .big => .address
  | .opt => .general
  | .aft => .general
  | .ver => .general
  | .del => .general
  | .mod => .general
  | .vgl => .general
  | .spr => .address
  | .vsp => .address
  | .sbr => .address
  | .ktg => .zeroOperand
  | .dru => .zeroOperand
  | .nwl => .zeroOperand
  | .drs => .zeroOperand
  | .nop => .zeroOperand
  | .stp => .zeroOperand

/-- The mode-1 digits (R63). -/
def Interp.digit : Interp → Fin 10
  | .value => 1
  | .address => 2
  | .direct => 3
  | .indirect => 4

/-- The interpretation of a mode-1 digit; any digit outside 1 to 4 is illegal (R63, R69). -/
def Interp.ofDigit (d : Fin 10) : Option Interp :=
  [Interp.value, .address, .direct, .indirect].find? fun m => m.digit == d

/-- The mode-2 digits (R64). -/
def Indexation.digit : Indexation → Fin 10
  | .none => 1
  | .plain _ => 2
  | .preInc _ => 3
  | .postInc _ => 4
  | .preDec _ => 5
  | .postDec _ => 6

/-- The idx digit the assembler writes: the register, or the sentinel when there is no indexation (R66, R89). -/
def Indexation.regDigit : Indexation → Fin 10
  | .none => Config.sentinel
  | .plain k => k
  | .preInc k => k
  | .postInc k => k
  | .preDec k => k
  | .postDec k => k

/-- The indexation of a mode-2 digit and an idx digit; any mode-2 digit outside 1 to 6 is illegal (R64, R69), and
the idx digit is ignored without indexation (R67 (c)). -/
def Indexation.ofDigits (m2 idx : Fin 10) : Option Indexation :=
  [Indexation.none, .plain idx, .preInc idx, .postInc idx, .preDec idx, .postDec idx].find? fun x => x.digit == m2

/-- The predicate selector digits (R65). -/
def Predicate.digit : Predicate → Fin 10
  | .equal => 1
  | .notNegative => 2
  | .notPositive => 3
  | .positive => 4
  | .negative => 5
  | .notEqual => 6

/-- The predicate of a selector digit; any digit outside 1 to 6 is illegal (R65, R70). -/
def Predicate.ofDigit (d : Fin 10) : Option Predicate :=
  [Predicate.equal, .notNegative, .notPositive, .positive, .negative, .notEqual].find? fun p => p.digit == d

/-- The mode checks of an operand-taking opcode, mode-2 before mode-1 (`40_cycle_decode_resolve.md` R103). -/
def decodeOperand (f : Fields) : Except DecodeError Operand :=
  match Indexation.ofDigits f.m2 f.idx with
  | none => .error .unknownMode2
  | some x =>
    match Interp.ofDigit f.m1 with
    | none => .error .unknownMode1
    | some m => .ok ⟨m, x, f.opnd⟩

/-- VSP's acc digit is a predicate selector, checked after the modes (`40_cycle_decode_resolve.md` R103). -/
def decodePredicate (f : Fields) (o : Operand) : Except DecodeError Instr :=
  match Predicate.ofDigit f.acc with
  | none => .error .badPredicate
  | some p => .ok (.vsp p o)

/-- The instruction of an opcode and the other fields; a zero-operand opcode looks at none of them
(`40_cycle_decode_resolve.md` R103, R104). -/
def decodeAs (c : Opcode) (f : Fields) : Except DecodeError Instr :=
  match c with
  | .hia => (decodeOperand f).map (.hia f.acc)
  | .big => (decodeOperand f).map (.big f.acc)
  | .opt => (decodeOperand f).map (.opt f.acc)
  | .aft => (decodeOperand f).map (.aft f.acc)
  | .ver => (decodeOperand f).map (.ver f.acc)
  | .del => (decodeOperand f).map (.del f.acc)
  | .mod => (decodeOperand f).map (.mod f.acc)
  | .vgl => (decodeOperand f).map (.vgl f.acc)
  | .spr => (decodeOperand f).map .spr
  | .vsp => (decodeOperand f).bind (decodePredicate f)
  | .sbr => (decodeOperand f).map .sbr
  | .ktg => .ok .ktg
  | .dru => .ok .dru
  | .nwl => .ok .nwl
  | .drs => .ok .drs
  | .nop => .ok .nop
  | .stp => .ok .stp

/-- The hardware's decoder: the opcode check (R102), then the mode checks; the opcode digits alone select the
instruction (`30_encoding.md` R61). It knows no macro. -/
def decodeCore (w : Int) : Except DecodeError Instr :=
  match unpack w with
  | none => .error .unknownOpcode
  | some f =>
    match Opcode.ofCode f.op with
    | none => .error .unknownOpcode
    | some c => decodeAs c f

/-- The opcode table's name for a core instruction: the two words patterns of R92 are rows of the table (BST, HST),
every other instruction is its own name. DESIGN CHOICE: log 8; safe. -/
def Instr.tableName : Instr → Instr
  | .hia a o => if o = popOperand then .hst a else .hia a o
  | .big a o => if o = pushOperand then .bst a else .big a o
  | .opt a o => .opt a o
  | .aft a o => .aft a o
  | .ver a o => .ver a o
  | .del a o => .del a o
  | .mod a o => .mod a o
  | .vgl a o => .vgl a o
  | .spr o => .spr o
  | .vsp p o => .vsp p o
  | .sbr o => .sbr o
  | .ktg => .ktg
  | .dru => .dru
  | .nwl => .nwl
  | .drs => .drs
  | .nop => .nop
  | .stp => .stp
  | .bst n => .bst n
  | .hst n => .hst n

/-- The decoder: `decodeCore`, the instruction under the opcode table's name for it. -/
def decode (w : Int) : Except DecodeError Instr := (decodeCore w).map Instr.tableName

/-- A word's fields for the zero-operand class: the sentinel in every digit that does not apply (R66). -/
def zeroOperandFields (c : Opcode) : Fields :=
  ⟨c.code, Config.sentinel, Config.sentinel, Config.sentinel, Config.sentinel, 9999⟩

/-- A word's fields for an operand-taking opcode with the digit `acc` (R87, R89). -/
def operandFields (c : Opcode) (acc : Fin 10) (o : Operand) : Fields :=
  ⟨c.code, o.interp.digit, o.index.digit, acc, o.index.regDigit, o.disp⟩

/-- The fields of an instruction's word as the assembler writes it (R66, R85 to R92). -/
def Instr.fields : Instr → Fields
  | .hia a o => operandFields .hia a o
  | .big a o => operandFields .big a o
  | .opt a o => operandFields .opt a o
  | .aft a o => operandFields .aft a o
  | .ver a o => operandFields .ver a o
  | .del a o => operandFields .del a o
  | .mod a o => operandFields .mod a o
  | .vgl a o => operandFields .vgl a o
  | .spr o => operandFields .spr Config.sentinel o
  | .vsp p o => operandFields .vsp p.digit o
  | .sbr o => operandFields .sbr Config.sentinel o
  | .ktg => zeroOperandFields .ktg
  | .dru => zeroOperandFields .dru
  | .nwl => zeroOperandFields .nwl
  | .drs => zeroOperandFields .drs
  | .nop => zeroOperandFields .nop
  | .stp => zeroOperandFields .stp
  | .bst n => operandFields .big n pushOperand
  | .hst n => operandFields .hia n popOperand

/-- The word of an instruction (R52): every instruction is exactly one word (R50). -/
def encode (i : Instr) : Int := pack i.fields

/-- The value of a cell whose bits are `w`: 64-bit two's complement (`10_state.md` R11). A ten-digit word is itself. -/
def cellOfBits (w : Nat) : Int := Int.bmod (w : Int) (2 ^ 64)

/-- The host's question: the instruction the decoder reads from the word whose bits are `w`. The word is one cell,
so the number of bits the table gives does not matter. PRESUMED: log 11; safe. -/
def decodeTableWord (_nbits w : Nat) : Option Instr := (decode (cellOfBits w)).toOption

end Sys2Proof
end

