-- ==== Sys2Proof/Machine/State.lean ====
section
/-!
DEFINITION. The whole architectural state of the Dramasim core (the tuple at the head of `10_state.md`), its
fatal faults, and its value after reset.
-/

namespace Sys2Proof.Machine

/-- The six fatal faults (`60_exceptions.md` R160), the values of the fault status (`10_state.md` R22). A cycle
that raises one ends in a NEXT state whose `fault` field holds it (R161), so that the state it leaves (R162) can be
seen: no step of this model answers `Host.Outcome.fault`. The raise is the spec's own and safe; log 5. -/
inductive Fault where
  /-- Raised by the decode phase of any cycle: the word is outside `(-10^10, 10^10)` or its opcode is unknown (R102).
  Safe. -/
  | unknownOpcode
  /-- Raised by the decode of an operand-taking opcode: mode-2 digit not in 1 to 6 (R103). Safe. -/
  | unknownMode2
  /-- Raised by the decode of an operand-taking opcode: mode-1 digit not in 1 to 4 (R103). Safe. -/
  | unknownMode1
  /-- Raised by the decode of VSP: predicate selector not in 1 to 6 (R103). Safe. -/
  | badPredicate
  /-- Raised by the indexation stage, OPT, AFT, VER, DEL, MOD, SBR, KTG, BST and HST: a result outside
  `[VAL_MIN, VAL_MAX]` (R109, R130). Safe, but for the choice of the range (log 1). -/
  | arithmeticOverflow
  /-- Raised by DEL and MOD: the resolved operand is 0 (R128, R129). Safe. -/
  | divideByZero
  deriving DecidableEq, Repr

/-- Reasons to give an instruction no meaning. No step of this model answers one. -/
inductive Refusal where
  /-- An instruction of the opcode table that the model does not give a meaning yet, by its mnemonic: raised by no
  arm of exec. Safe. -/
  | notModelled (mnemonic : String)
  deriving DecidableEq, Repr

/-- The condition code (`10_state.md` R17). -/
inductive CondCode where
  | positive | equal | negative
  deriving DecidableEq, Repr

/-- A token of the output channel (`10_state.md` R21). -/
inductive OutToken where
  /-- appended by DRU -/
  | value (n : Int)
  /-- appended by NWL -/
  | newline
  deriving DecidableEq, Repr

/-- One cell of memory at its address; the machine has no bytes (`20_memory.md` R30, R35; log 7). -/
abbrev Cell := Addr × Int

/-- The memory: the cells that do not hold 0, addresses strictly rising (`Memory.wf`). -/
abbrev Memory := List Cell

/-- What an unlisted cell reads as: 0, the reset value of every cell (`10_state.md` R29). -/
def Memory.unlisted : Int := 0

/-- Addresses strictly rise from `lo` on, and no entry holds what an unlisted cell reads as. -/
def Memory.wfFrom (lo : Nat) : Memory → Bool
  | [] => true
  | (a, v) :: rest => decide (lo ≤ a.val) && decide (v ≠ Memory.unlisted) && Memory.wfFrom (a.val + 1) rest

/-- The one canonical form of a memory: equal memories are equal lists (log 7). -/
def Memory.wf (m : Memory) : Bool := Memory.wfFrom 0 m

/-- The state of the machine: the tuple at the head of `10_state.md`; "Nothing else is state." -/
structure State where
  /-- the ten accumulators (R10) -/
  x : Vector Int 10
  /-- the instruction pointer (R14) -/
  ip : Addr
  /-- the condition code (R17) -/
  cc : CondCode
  /-- the halted flag (R20) -/
  halted : Bool
  /-- the fault status (R22) -/
  fault : Option Fault
  /-- the 10,000 cells of memory (R19) -/
  mem : Memory
  /-- the output channel, oldest token first (R21; log 16) -/
  out : List OutToken
  deriving DecidableEq, Repr

/-- The machine right after reset (`10_state.md` R29, `70_reset_and_hazards.md` R180): no reset value is
unspecified. -/
def State.reset : State :=
  { x := Vector.replicate 10 0
    ip := 0
    cc := .equal
    halted := false
    fault := none
    mem := []
    out := [] }

end Sys2Proof.Machine
end

