-- ==== Sys2Proof/Machine/Ops.lean ====
section
/-!
DEFINITION. The named operations over registers, memory, instruction pointer and output (`00_scope.md` R7,
`20_memory.md` R31, R32), the range check `fit` (R6), raising a fatal fault (`60_exceptions.md` R161), and fetching.
-/

namespace Sys2Proof.Machine

/-- What one cycle of this machine answers. -/
abbrev Result := Host.Outcome State Fault Refusal

/-! ### Memory -/

/-- The content of cell `a`. -/
def Memory.read : Memory → Addr → Int
  | [], _ => Memory.unlisted
  | (b, v) :: rest, a => if a = b then v else Memory.read rest a

/-- Memory without an entry for cell `a`. -/
def Memory.clear (m : Memory) (a : Addr) : Memory := m.filter fun c => c.1 ≠ a

/-- An entry for `(a, v)` in front of the first greater address. -/
def Memory.put : Memory → Addr → Int → Memory
  | [], a, v => [(a, v)]
  | (b, w) :: rest, a, v =>
    if a.val < b.val then (a, v) :: (b, w) :: rest else (b, w) :: Memory.put rest a v

/-- Memory with cell `a` holding `v`; keeps the canonical form: what an unlisted cell reads as is not listed. -/
def Memory.write (m : Memory) (a : Addr) (v : Int) : Memory :=
  if v = Memory.unlisted then m.clear a else (m.clear a).put a v

/-- `MemRead(addr, 1)`: the content of cell `address_of(addr)`, for every integer `addr` (`20_memory.md` R31). -/
def State.memRead (s : State) (addr : Int) : Int := s.mem.read (addressOf addr)

/-- `MemWrite(addr, 1, v)`: cell `address_of(addr)` takes `v` unchanged (`20_memory.md` R32). -/
def State.memWrite (s : State) (addr : Int) (v : Int) : State :=
  { s with mem := s.mem.write (addressOf addr) v }

/-! ### Registers, condition code, instruction pointer, output -/

/-- `x[i]` (R7). -/
def State.reg (s : State) (i : Reg) : Int := s.x[i]

/-- `x[i] <- v` (R7). -/
def State.setReg (s : State) (i : Reg) (v : Int) : State := { s with x := s.x.set i v }

/-- `CC <- c` (R7). -/
def State.setCC (s : State) (c : CondCode) : State := { s with cc := c }

/-- `ip <- t` (R7). -/
def State.setIp (s : State) (t : Addr) : State := { s with ip := t }

/-- `Out(t)`: the output channel gains one token (R7, `10_state.md` R21). -/
def State.emit (s : State) (t : OutToken) : State := { s with out := s.out ++ [t] }

/-- `halted <- true` (R7, `10_state.md` R20). -/
def State.halt (s : State) : State := { s with halted := true }

/-! ### Range check and fatal faults -/

/-- `fit(v)`: `v` when it is in `[VAL_MIN, VAL_MAX]`; `none` stands for `raise ArithmeticOverflow`
(`00_scope.md` R6, `42_arithmetic.md` R130). -/
def fit (v : Int) : Option Int := if Config.valMin ≤ v ∧ v ≤ Config.valMax then some v else none

/-- `raise F`: taking a fatal fault (`60_exceptions.md` R161). The cause is recorded; nothing is saved, no control
is transferred, `halted` stays as it is; there is no return from a fault (R167, R168). -/
def State.raise (s : State) (f : Fault) : State := { s with fault := some f }

/-- The fault a rejection by the decoder raises (`40_cycle_decode_resolve.md` R102, R103). -/
def Fault.ofDecode : DecodeError → Fault
  | .unknownOpcode => .unknownOpcode
  | .unknownMode2 => .unknownMode2
  | .unknownMode1 => .unknownMode1
  | .badPredicate => .badPredicate

/-- The cause codes, labels for the host (`60_exceptions.md` R160). -/
def Fault.code : Fault → Nat
  | .unknownOpcode => 1
  | .unknownMode2 => 2
  | .unknownMode1 => 3
  | .badPredicate => 4
  | .arithmeticOverflow => 5
  | .divideByZero => 6

/-! ### The cycle's first phases -/

/-- The machine performs no further cycle: it is halted or faulted (`40_cycle_decode_resolve.md` R100). -/
def State.stopped (s : State) : Bool := s.halted || s.fault.isSome

/-- FETCH: `MemRead(ip, 1)` (`40_cycle_decode_resolve.md` R101). -/
def State.fetch (s : State) : Int := s.mem.read s.ip

/-- ADVANCE: `ip <- (ip + 1) mod 10000` (`40_cycle_decode_resolve.md` R101, `10_state.md` R15). -/
def State.advance (s : State) : State := s.setIp (addressOf ((s.ip.val : Int) + 1))

end Sys2Proof.Machine
end

