-- ==== Sys2Proof/Machine/Flags.lean ====
section
/-!
DEFINITION. The condition code: `sign` (`00_scope.md` R7, `10_state.md` R17, R18) and the six predicates of the
conditional jump (`30_encoding.md` R65, `43_compare_branch.md` R137, R138).
-/

namespace Sys2Proof.Machine

/-- `sign(v)` (R7). -/
def sign (v : Int) : CondCode :=
  if 0 < v then .positive else if v = 0 then .equal else .negative

/-- Whether a predicate holds of a condition code (R65, R137). -/
def predicateHolds (p : Predicate) (c : CondCode) : Bool :=
  match p with
  | .equal => c == .equal
  | .notNegative => c != .negative
  | .notPositive => c != .positive
  | .positive => c == .positive
  | .negative => c == .negative
  | .notEqual => c != .equal

end Sys2Proof.Machine
end

