-- ==== Sys2Proof/Machine/Operands.lean ====
section
/-!
DEFINITION. The two-stage operand resolution common to all operand-taking instructions
(`40_cycle_decode_resolve.md` R105 to R110).
-/

namespace Sys2Proof.Machine

/-- A stage that may raise: what it computed and the state it left, or the state at the fault (with the fault
taken). -/
abbrev Staged (α : Type) := Except State (α × State)

/-- `x[k] <- fit(x[k] + d)`; an overflow is raised with `x[k]` not written (R106, R109). -/
def stepIndex (k : Reg) (d : Int) (s : State) : Except State State :=
  match fit (s.reg k + d) with
  | some v => .ok (s.setReg k v)
  | none => .error (s.raise .arithmeticOverflow)

/-- `A = fit(opnd + x[k])` (R106, R109). -/
def addIndex (opnd : Int) (k : Reg) (s : State) : Staged Int :=
  match fit (opnd + s.reg k) with
  | some a => .ok (a, s)
  | none => .error (s.raise .arithmeticOverflow)

/-- Step the index register, then add its new value (the pre modes of R106). -/
def stepThenAdd (opnd : Int) (k : Reg) (d : Int) (s : State) : Staged Int :=
  match stepIndex k d s with
  | .error t => .error t
  | .ok t => addIndex opnd k t

/-- Add the index register's old value, then step it (the post modes of R106). -/
def addThenStep (opnd : Int) (k : Reg) (d : Int) (s : State) : Staged Int :=
  match addIndex opnd k s with
  | .error t => .error t
  | .ok (a, t) =>
    match stepIndex k d t with
    | .error u => .error u
    | .ok u => .ok (a, u)

/-- The indexation stage (R106; R107 for post-decrement, which adds `POSTDEC_DELTA`). -/
def indexStage (opnd : Int) (x : Indexation) (s : State) : Staged Int :=
  match x with
  | .none => .ok (opnd, s)
  | .plain k => addIndex opnd k s
  | .preInc k => stepThenAdd opnd k 1 s
  | .postInc k => addThenStep opnd k 1 s
  | .preDec k => stepThenAdd opnd k (-1) s
  | .postDec k => addThenStep opnd k Config.postDecDelta s

/-- The value stage (R108): it cannot fault. -/
def valueStage (m : Interp) (a : Int) (s : State) : Int :=
  match m with
  | .value => a
  | .address => ((addressOf a).val : Int)
  | .direct => s.memRead a
  | .indirect => s.memRead (s.memRead a)

/-- Both stages: the resolved operand `v` and the state the operation starts from (R105). -/
def resolve (o : Operand) (s : State) : Staged Int :=
  match indexStage o.disp o.index s with
  | .error t => .error t
  | .ok (a, t) => .ok (valueStage o.interp a t, t)

/-- Resolve the operand, then run the operation on it; a fault of the indexation stage ends the cycle (R101, R109). -/
def withOperand (o : Operand) (s : State) (operation : Int → State → Result) : Result :=
  match resolve o s with
  | .error t => .next t
  | .ok (v, t) => operation v t

end Sys2Proof.Machine
end

