-- ==== Sys2Proof/Machine/Arithmetic.lean ====
section
/-!
DEFINITION. The arithmetic instructions OPT, AFT, VER, DEL, MOD and the exact results behind them
(`42_arithmetic.md`).
-/

namespace Sys2Proof.Machine

/-- A result that must fit (R130). -/
def fitted (v : Int) : Except Fault Int :=
  match fit v with
  | some w => .ok w
  | none => .error .arithmeticOverflow

/-- The sum (R125). -/
def sumOf (x v : Int) : Except Fault Int := fitted (x + v)

/-- The difference (R126). -/
def differenceOf (x v : Int) : Except Fault Int := fitted (x - v)

/-- The product (R127). -/
def productOf (x v : Int) : Except Fault Int := fitted (x * v)

/-- The quotient truncated toward zero; a zero divisor is tested first (R128, R166). -/
def quotientOf (x v : Int) : Except Fault Int :=
  if v = 0 then .error .divideByZero else fitted (Int.tdiv x v)

/-- The remainder with the sign of the dividend; `VAL_MIN` by -1 overflows as the quotient does (R129, C16). -/
def remainderOf (x v : Int) : Except Fault Int :=
  if v = 0 then .error .divideByZero
  else if x = Config.valMin ∧ v = -1 then .error .arithmeticOverflow
  else .ok (Int.tmod x v)

/-- What the five arithmetic instructions share: the accumulator takes the result and the condition code is that of
the resolved operand, not of the result (R132); on a fault neither is written (R125 to R129). -/
def accumulate (a : Reg) (v : Int) (result : Except Fault Int) (t : State) : Result :=
  match result with
  | .error f => .next (t.raise f)
  | .ok r => .next ((t.setReg a r).setCC (sign v))

/-- OPT, add (R125). -/
def execOpt (a : Reg) (o : Operand) (s : State) : Result :=
  withOperand o s fun v t => accumulate a v (sumOf (t.reg a) v) t

/-- AFT, subtract (R126). -/
def execAft (a : Reg) (o : Operand) (s : State) : Result :=
  withOperand o s fun v t => accumulate a v (differenceOf (t.reg a) v) t

/-- VER, multiply (R127). -/
def execVer (a : Reg) (o : Operand) (s : State) : Result :=
  withOperand o s fun v t => accumulate a v (productOf (t.reg a) v) t

/-- DEL, divide (R128). -/
def execDel (a : Reg) (o : Operand) (s : State) : Result :=
  withOperand o s fun v t => accumulate a v (quotientOf (t.reg a) v) t

/-- MOD, modulo (R129). -/
def execMod (a : Reg) (o : Operand) (s : State) : Result :=
  withOperand o s fun v t => accumulate a v (remainderOf (t.reg a) v) t

end Sys2Proof.Machine
end

