-- ==== Sys2Proof/Machine/CompareBranch.lean ====
section
/-!
DEFINITION. Compare and jump: VGL, SPR, VSP (`43_compare_branch.md`).
-/

namespace Sys2Proof.Machine

/-- VGL, compare-like (R135): the accumulator is not read. -/
def execVgl (_a : Reg) (o : Operand) (s : State) : Result :=
  withOperand o s fun v t => .next (t.setCC (sign v))

/-- SPR, jump (R136). -/
def execSpr (o : Operand) (s : State) : Result :=
  withOperand o s fun v t => .next (t.setIp (addressOf v))

/-- VSP, conditional jump (R137): the operand is resolved whether or not the jump is taken (R110). -/
def execVsp (p : Predicate) (o : Operand) (s : State) : Result :=
  withOperand o s fun v t => .next (if predicateHolds p t.cc then t.setIp (addressOf v) else t)

end Sys2Proof.Machine
end

