-- ==== Sys2Proof/Machine/LoadStore.lean ====
section
/-!
DEFINITION. Load and store: HIA, BIG, and the macros BST, HST (`41_load_store.md`). Every meaning starts from a
state whose instruction pointer has been advanced (`10_state.md` R15).
-/

namespace Sys2Proof.Machine

/-- HIA, load accumulator (R120). -/
def execHia (a : Reg) (o : Operand) (s : State) : Result :=
  withOperand o s fun v t => .next ((t.setReg a v).setCC (sign v))

/-- BIG, store accumulator (R121): `x[a]` is read after the indexation stage. -/
def execBig (a : Reg) (o : Operand) (s : State) : Result :=
  withOperand o s fun v t => .next ((t.memWrite v (t.reg a)).setCC (sign (t.reg a)))

/-- BST, push (R122): the decremented stack pointer is written before `x[n]` is read. -/
def execBst (n : Reg) (s : State) : Result :=
  match fit (s.reg Config.spData - 1) with
  | none => .next (s.raise .arithmeticOverflow)
  | some sp =>
    let t := s.setReg Config.spData sp
    .next ((t.memWrite sp (t.reg n)).setCC (sign (t.reg n)))

/-- HST, pop (R123): the incremented stack pointer is written before `x[n]` is. -/
def execHst (n : Reg) (s : State) : Result :=
  match fit (s.reg Config.spData + 1) with
  | none => .next (s.raise .arithmeticOverflow)
  | some sp =>
    let t := s.setReg Config.spData sp
    let v := t.memRead (s.reg Config.spData)
    .next ((t.setReg n v).setCC (sign v))

end Sys2Proof.Machine
end

