-- ==== Sys2Proof/Machine/Subroutine.lean ====
section
/-!
DEFINITION. Subroutine call and return: SBR, KTG (`44_subroutine.md`), on the memory stack of register 9.
-/

namespace Sys2Proof.Machine

/-- SBR, call (R142): the operand is resolved before `x[9]` is decremented; `ip` is the return address. -/
def execSbr (o : Operand) (s : State) : Result :=
  withOperand o s fun v t =>
    match fit (t.reg Config.spCall - 1) with
    | none => .next (t.raise .arithmeticOverflow)
    | some sp => .next (((t.setReg Config.spCall sp).memWrite sp (expandAddress t.ip)).setIp (addressOf v))

/-- KTG, return (R143). -/
def execKtg (s : State) : Result :=
  let r := s.memRead (s.reg Config.spCall)
  match fit (s.reg Config.spCall + 1) with
  | none => .next (s.raise .arithmeticOverflow)
  | some sp => .next ((s.setReg Config.spCall sp).setIp (addressOf r))

end Sys2Proof.Machine
end

