-- ==== Sys2Proof/Machine/System.lean ====
section
/-!
DEFINITION. No-op, output and halt: NOP, DRU, NWL, DRS, STP (`45_system_io.md`). None resolves an operand, none
touches the condition code, none can fault.
-/

namespace Sys2Proof.Machine

/-- NOP (R147): nothing but the advance of `ip`, which the step has made. -/
def execNop (s : State) : Result := .next s

/-- DRU, print accumulator 0 (R148). -/
def execDru (s : State) : Result := .next (s.emit (.value (s.reg 0)))

/-- NWL, print newline (R149). -/
def execNwl (s : State) : Result := .next (s.emit .newline)

/-- DRS, structured print, unimplemented: "treat as a no-op that still advances" (R150). -/
def execDrs (s : State) : Result := .next s

/-- STP, halt (R151). -/
def execStp (s : State) : Result := .next s.halt

end Sys2Proof.Machine
end

