-- ==== Sys2Proof/Machine/Dispatch.lean ====
section
/-! DEFINITION. The dispatch multiplexer (`40_cycle_decode_resolve.md` R111): one arm for each instruction. -/

namespace Sys2Proof.Machine

-- exec runs on the state after FETCH and ADVANCE (R101): ip is already that of the next instruction (log 12).
def exec (i : Instr) (s : State) : Host.Outcome State Fault Refusal :=
  match i with
  | .hia a o => Sys2Proof.Machine.execHia a o s
  | .big a o => Sys2Proof.Machine.execBig a o s
  | .opt a o => Sys2Proof.Machine.execOpt a o s
  | .aft a o => Sys2Proof.Machine.execAft a o s
  | .ver a o => Sys2Proof.Machine.execVer a o s
  | .del a o => Sys2Proof.Machine.execDel a o s
  | .mod a o => Sys2Proof.Machine.execMod a o s
  | .vgl a o => Sys2Proof.Machine.execVgl a o s
  | .spr o => Sys2Proof.Machine.execSpr o s
  | .vsp p o => Sys2Proof.Machine.execVsp p o s
  | .sbr o => Sys2Proof.Machine.execSbr o s
  | .ktg => Sys2Proof.Machine.execKtg s
  | .dru => Sys2Proof.Machine.execDru s
  | .nwl => Sys2Proof.Machine.execNwl s
  | .drs => Sys2Proof.Machine.execDrs s
  | .nop => Sys2Proof.Machine.execNop s
  | .stp => Sys2Proof.Machine.execStp s
  | .bst n => Sys2Proof.Machine.execBst n s
  | .hst n => Sys2Proof.Machine.execHst n s

end Sys2Proof.Machine
end

