-- ==== Sys2Proof/Machine/Step.lean ====
section
/-!
DEFINITION. One instruction cycle as one atomic step (`40_cycle_decode_resolve.md` R100, R101;
`70_reset_and_hazards.md` R187).
-/

namespace Sys2Proof.Machine

/-- One cycle. A halted or faulted machine performs none and changes no state, for ever (R100). A running machine
fetches, advances, decodes and executes (R101); a rejection by the decoder is raised after the advance (R102,
R103). -/
def step (s : State) : Host.Outcome State Fault Refusal :=
  if s.stopped then .next s
  else
    match decode s.fetch with
    | .error e => .next (s.advance.raise (Fault.ofDecode e))
    | .ok i => exec i s.advance

/-- `s`, running, with the word whose bits are `w` in the cell the next cycle fetches: it stands for the load port
(`10_state.md` R26). The fetch needs the machine to be running, so the two flags that stop it are cleared. Log 10,
log 11. -/
def State.withFetchWord (s : State) (_nbits w : Nat) : State :=
  { s with mem := s.mem.write s.ip (cellOfBits w), halted := false, fault := none }

end Sys2Proof.Machine
end

