-- ==== Sys2Proof/Machine/AsmText.lean ====
section
/-!
DEFINITION. The assembler's lexical level and its expressions (`30_encoding.md` R74 to R76, R79, R82 to R84):
toolchain contract, not hardware (R73). Text is a list of characters.
-/

namespace Sys2Proof.Asm

/-- Program text, a line, or a part of one. -/
abbrev Text := List Char

/-- Labels bound to their addresses, the latest definition first (R76). -/
abbrev Bindings := List (Text × Int)

/-- The external expression evaluator's contract: one number or a failure, from an expression and the binding set
(R84). -/
abbrev Evaluator := Text → Bindings → Option Int

/-- White space: the blank, the tab, the line feed and the carriage return. The rules say only "whitespace" (R74, R76,
R79). DESIGN CHOICE: log 19. -/
def isSpace (c : Char) : Bool := c.isWhitespace

/-- Both ends trimmed. -/
def trim (t : Text) : Text := ((t.dropWhile isSpace).reverse.dropWhile isSpace).reverse

/-- The pieces between the occurrences of a separator. -/
def splitAll (sep : Char) : Text → List Text
  | [] => [[]]
  | c :: cs =>
    if c = sep then [] :: splitAll sep cs
    else
      match splitAll sep cs with
      | [] => [[c]]
      | l :: ls => (c :: l) :: ls

/-- Case-insensitive tokens are compared in capitals (R79, R82; D25), the letters being `a` to `z`.
DESIGN CHOICE: log 19. -/
def upper (t : Text) : Text := t.map Char.toUpper

/-- One line without its comment, trimmed (R74). -/
def normalizeLine (t : Text) : Text := trim (t.takeWhile fun c => c != '|')

/-- A line that begins with the upper-case terminator (R75, C5). -/
def isTerminator (line : Text) : Bool := "EINDPR".toList.isPrefixOf line

/-- The normalised lines up to the terminator (R74, R75). That the line feed alone separates lines is the model's: the
rule says only "line". DESIGN CHOICE: log 19. -/
def normalize (text : Text) : List Text :=
  (((splitAll '\n' text).map normalizeLine).filter fun l => !l.isEmpty).takeWhile fun l => !isTerminator l

/-- The label before the last colon, if the line has a colon, and the remainder (R76). -/
def splitLabel (line : Text) : Option Text × Text :=
  match line.reverse.dropWhile fun c => c != ':' with
  | [] => (none, line)
  | _ :: l => (some (trim l.reverse), trim (line.reverse.takeWhile fun c => c != ':').reverse)

/-- The token before the first run of white space, and the remainder (R79). -/
def firstToken (line : Text) : Text × Text :=
  (line.takeWhile fun c => !isSpace c, trim (line.dropWhile fun c => !isSpace c))

/-- The opcode token's name and the suffix after its first `.`, if there is one (R79). That a later `.` belongs to the
suffix is the model's. DESIGN CHOICE: log 19. -/
def splitSuffix (token : Text) : Text × Option Text :=
  (token.takeWhile fun c => c != '.',
    match token.dropWhile fun c => c != '.' with
    | [] => none
    | _ :: s => some s)

/-- A single digit 0 to 9. -/
def parseDigit (c : Char) : Option (Fin 10) :=
  if c.isDigit then some (Fin.ofNat 10 (c.toNat - '0'.toNat)) else none

/-- A register operand: `R`, in either case, and one digit (R82). -/
def parseReg (t : Text) : Option Reg :=
  match t with
  | [r, d] => if r.toUpper = 'R' then parseDigit d else none
  | _ => none

/-! ### The expression subset of R84 and D29 (what D29 leaves open in it: log 14) -/

/-- The tokens of an expression. -/
inductive ExprToken where
  | word (t : Text)
  | plus
  | minus
  deriving DecidableEq, Repr

/-- The word being read, if any, in front of the tokens after it. -/
def closeWord (w : Text) (ts : List ExprToken) : List ExprToken :=
  if w.isEmpty then ts else .word w :: ts

/-- Tokens from right to left: the word open at the front, and the tokens after it. Parentheses are not in the
subset. -/
def scanExpr : Text → Option (Text × List ExprToken)
  | [] => some ([], [])
  | c :: cs =>
    match scanExpr cs with
    | none => none
    | some (w, ts) =>
      if isSpace c then some ([], closeWord w ts)
      else if c = '+' then some ([], .plus :: closeWord w ts)
      else if c = '-' then some ([], .minus :: closeWord w ts)
      else if c = '(' ∨ c = ')' then none
      else some (c :: w, ts)

/-- A decimal integer literal. -/
def decimal (w : Text) : Int :=
  w.foldl (fun n c => 10 * n + ((c.toNat - '0'.toNat : Nat) : Int)) 0

/-- A literal or a label name. A word of digits only is always the literal, also when a label of that name is bound
(R76 allows one). DESIGN CHOICE: log 14. -/
def evalWord (b : Bindings) (w : Text) : Option Int :=
  if w.all Char.isDigit then some (decimal w)
  else (b.find? fun p => p.1 == w).map Prod.snd

/-- Left to right; the last argument is the sign of the operand that must come next, or none after an operand. Several
unary minus signs may precede an operand. DESIGN CHOICE: log 14. -/
def evalTokens (b : Bindings) : List ExprToken → Int → Option Int → Option Int
  | [], acc, none => some acc
  | [], _, some _ => none
  | .word w :: ts, acc, some sgn =>
    match evalWord b w with
    | none => none
    | some v => evalTokens b ts (acc + sgn * v) none
  | .word _ :: _, _, none => none
  | .plus :: ts, acc, none => evalTokens b ts acc (some 1)
  | .plus :: _, _, some _ => none
  | .minus :: ts, acc, none => evalTokens b ts acc (some (-1))
  | .minus :: ts, acc, some sgn => evalTokens b ts acc (some (-sgn))

/-- The evaluator of the subset the spec defines: integer literals, unary minus, label names, binary `+` and `-`
(R84, D29). -/
def evalSubset : Evaluator := fun t b =>
  match scanExpr t with
  | none => none
  | some (w, ts) => evalTokens b (closeWord w ts) 0 (some 1)

end Sys2Proof.Asm
end

