-- ==== Sys2Proof/Machine/Assembler.lean ====
section
/-!
DEFINITION. The assembler as a function from program text to `(address, word)` pairs or one error
(`30_encoding.md` R73, R76 to R96): toolchain contract, not hardware. Points of syntax the spec leaves open:
log 15 (single errors), log 19 (characters), log 20 (index groups), log 21 (the order of errors within a line).
-/

namespace Sys2Proof.Asm

/-- An interpretation suffix (R79). -/
inductive Suffix where
  | d | i | w | a
  deriving DecidableEq, Repr

/-- The assembler's errors (R94; `malformedIndex` is D25's). -/
inductive AsmError where
  | expressionFailure
  | negativeReservation
  | missingOperand
  | missingSecondOperand (c : Opcode)
  | malformedRegister
  | malformedIndex
  | unexpectedInterpretation
  | unsupportedInterpretation (accepted : List Suffix)
  | suffixTooLong
  | registerRegisterUnsupported
  | registerRegisterConflict
  | incomprehensible
  deriving DecidableEq, Repr

/-- What an opcode token names: one of the 17 instructions, or a macro (R92, R96). -/
inductive SourceOp where
  | core (c : Opcode)
  | push
  | pop
  deriving DecidableEq, Repr

/-- An addressed line after label resolution (R78). -/
structure SourceLine where
  address : Nat
  text : Text
  deriving DecidableEq, Repr

/-- The mnemonics in capitals (R62, R92, D8). -/
def mnemonics : List (String × SourceOp) :=
  [("HIA", .core .hia), ("BIG", .core .big), ("OPT", .core .opt), ("AFT", .core .aft), ("VER", .core .ver),
   ("DEL", .core .del), ("MOD", .core .mod), ("VGL", .core .vgl), ("SPR", .core .spr), ("VSP", .core .vsp),
   ("SBR", .core .sbr), ("KTG", .core .ktg), ("DRU", .core .dru), ("NWL", .core .nwl), ("DRS", .core .drs),
   ("NOP", .core .nop), ("STP", .core .stp), ("BST", .push), ("HST", .pop)]

/-- The operation a name stands for, in any case (R79). -/
def lookupOp (name : Text) : Option SourceOp :=
  (mnemonics.find? fun p => p.1.toList == upper name).map Prod.snd

/-- The letter of a suffix, in either case (R79, D25). -/
def Suffix.ofChar (c : Char) : Option Suffix :=
  if c.toUpper = 'D' then some .d
  else if c.toUpper = 'I' then some .i
  else if c.toUpper = 'W' then some .w
  else if c.toUpper = 'A' then some .a
  else none

/-- The interpretation a suffix selects in each class of opcodes, one lower in the address class; none where the
class does not accept it (R80, R88). -/
def interpOf : OpcodeClass → Suffix → Option Interp
  | .general, .w => some .value
  | .general, .a => some .address
  | .general, .d => some .direct
  | .general, .i => some .indirect
  | .address, .d => some .address
  | .address, .i => some .direct
  | .address, .w => none
  | .address, .a => none
  | .zeroOperand, _ => none

/-- The accepted suffixes of a class (R80). -/
def accepted (k : OpcodeClass) : List Suffix :=
  [Suffix.d, .i, .w, .a].filter fun x => (interpOf k x).isSome

/-- A suffix text for a class: the errors of R79, R80 and R94, and C15. That a class without suffixes answers Unexpected
to a long suffix too, and that an empty suffix is Unsupported, is the model's. DESIGN CHOICE: log 15. -/
def checkSuffix (k : OpcodeClass) (s : Option Text) : Except AsmError (Option Suffix) :=
  match s with
  | none => .ok none
  | some t =>
    if (accepted k).isEmpty then .error .unexpectedInterpretation
    else
      match t with
      | [] => .error (.unsupportedInterpretation (accepted k))
      | [c] =>
        match Suffix.ofChar c with
        | none => .error (.unsupportedInterpretation (accepted k))
        | some x => if x ∈ accepted k then .ok (some x) else .error (.unsupportedInterpretation (accepted k))
      | _ :: _ :: _ => .error .suffixTooLong

/-- The interpretation of an operand-taking line; `.d` when no suffix is written (R79, D22). -/
def lineInterp (k : OpcodeClass) (s : Option Suffix) : Except AsmError Interp :=
  match interpOf k (s.getD .d) with
  | none => .error (.unsupportedInterpretation (accepted k))
  | some m => .ok m

/-- A register inside an index group. -/
def groupReg (r d : Char) : Except AsmError Reg :=
  match parseReg [r, d] with
  | none => .error .malformedRegister
  | some k => .ok k

/-- An increment or decrement marker. -/
def isMarker (c : Char) : Bool := c == '+' || c == '-'

/-- The text inside the parentheses of an index group (R83, R89). Two markers around a register are malformed (D25).
White space inside the text is accepted nowhere, and two markers around a malformed register are the error
Malformed-register: both the model's. DESIGN CHOICE: log 20. -/
def parseGroup (g : Text) : Except AsmError Indexation :=
  match g with
  | [r, d] => (groupReg r d).map .plain
  | [x, y, z] =>
    if x = '+' then (groupReg y z).map .preInc
    else if x = '-' then (groupReg y z).map .preDec
    else if z = '+' then (groupReg x y).map .postInc
    else if z = '-' then (groupReg x y).map .postDec
    else .error .malformedRegister
  | [x, y, z, u] =>
    if isMarker x && isMarker u then (groupReg y z).bind fun _ => .error .malformedIndex
    else .error .malformedRegister
  | _ => .error .malformedRegister

/-- The value of an expression (R84). -/
def evalExpr (ev : Evaluator) (b : Bindings) (t : Text) : Except AsmError Int :=
  match ev t b with
  | none => .error .expressionFailure
  | some v => .ok v

/-- The index group of an operand, from its first parenthesis on; without one, no indexation (R83, R89). White space
just inside the parentheses is accepted, and a group without its closing parenthesis or with text after it is the
error Malformed-register: both the model's. DESIGN CHOICE: log 20. -/
def operandGroup (t : Text) : Except AsmError Indexation :=
  match t.dropWhile fun c => c != '(' with
  | [] => .ok .none
  | _ :: g =>
    match g.reverse with
    | ')' :: inner => parseGroup (trim inner.reverse)
    | _ => .error .malformedRegister

/-- The right-hand operand `EXPR[(group)]` (R83). The expression's value is kept as it is: `pack` reduces it (R90).
White space before the group is accepted (DESIGN CHOICE: log 20), and an error of the group is reported before one of
the expression (DESIGN CHOICE: log 21). -/
def parseOperand (ev : Evaluator) (b : Bindings) (m : Interp) (t : Text) : Except AsmError Operand :=
  (operandGroup t).bind fun x =>
    (evalExpr ev b (trim (t.takeWhile fun c => c != '('))).map fun v => ⟨m, x, v⟩

/-- Two bare registers (R91): general opcodes only, and no written suffix. An opcode that has no such form answers
Register-register-unsupported also when a suffix is written. DESIGN CHOICE: log 21. -/
def registerSugar (c : Opcode) (s : Option Suffix) (n k : Reg) : Except AsmError Fields :=
  match c.kind with
  | .general =>
    match s with
    | some _ => .error .registerRegisterConflict
    | none => .ok (operandFields c n ⟨.value, .plain k, 0⟩)
  | .address => .error .registerRegisterUnsupported
  | .zeroOperand => .error .registerRegisterUnsupported

/-- The zero-operand form (R85). Two bare registers are operand text like any other, so Incomprehensible, also where R91
would make them Register-register-unsupported. DESIGN CHOICE: log 15. -/
def zeroForm (c : Opcode) (arg : Text) : Except AsmError Fields :=
  if arg.isEmpty then .ok (zeroOperandFields c) else .error .incomprehensible

/-- The single-operand address form of SPR and SBR (R86). An index group, or two bare registers as in `SPR R1, R2`, which
R91 and D23 would make Register-register-unsupported, is left to the evaluator, as part of the one expression.
DESIGN CHOICE: log 15. -/
def singleForm (ev : Evaluator) (b : Bindings) (c : Opcode) (s : Option Suffix) (arg : Text) :
    Except AsmError Fields :=
  if arg.isEmpty then .error .missingOperand
  else
    (lineInterp c.kind s).bind fun m =>
      (evalExpr ev b arg).map fun v => operandFields c Config.sentinel ⟨m, .none, v⟩

/-- The two operands of a two-operand form, both present (R87). An error of the left one is reported before one of the
right. DESIGN CHOICE: log 21. -/
def twoOperands (ev : Evaluator) (b : Bindings) (c : Opcode) (s : Option Suffix) (left right : Text) :
    Except AsmError Fields :=
  match parseReg left with
  | none => .error .malformedRegister
  | some n =>
    match parseReg right with
    | some k => registerSugar c s n k
    | none =>
      (lineInterp c.kind s).bind fun m =>
        (parseOperand ev b m right).map fun o => operandFields c n o

/-- The two-operand form, split at the first comma (R87, C6). A missing operand is reported before an error of an operand
that is there. DESIGN CHOICE: log 21. -/
def twoForm (ev : Evaluator) (b : Bindings) (c : Opcode) (s : Option Suffix) (arg : Text) :
    Except AsmError Fields :=
  if arg.isEmpty then .error .missingOperand
  else
    match arg.dropWhile fun x => x != ',' with
    | [] => .error (.missingSecondOperand c)
    | _ :: r =>
      if (trim r).isEmpty then .error (.missingSecondOperand c)
      else twoOperands ev b c s (trim (arg.takeWhile fun x => x != ',')) (trim r)

/-- The forms of the 17 instructions (R85 to R87). -/
def coreForm (ev : Evaluator) (b : Bindings) (c : Opcode) (s : Option Suffix) (arg : Text) :
    Except AsmError Fields :=
  match c.kind with
  | .zeroOperand => zeroForm c arg
  | .general => twoForm ev b c s arg
  | .address => if c = .spr ∨ c = .sbr then singleForm ev b c s arg else twoForm ev b c s arg

/-- A push or pop macro: a register alone, and no suffix (R92). A suffix is reported before a missing or malformed
register (DESIGN CHOICE: log 21). Two bare registers are one malformed register, also where R91 would make them
Register-register-unsupported (DESIGN CHOICE: log 15). -/
def macroForm (c : Opcode) (o : Operand) (s : Option Text) (arg : Text) : Except AsmError Fields :=
  match s with
  | some _ => .error .unexpectedInterpretation
  | none =>
    if arg.isEmpty then .error .missingOperand
    else
      match parseReg arg with
      | none => .error .malformedRegister
      | some n => .ok (operandFields c n o)

/-- The fields of an instruction line (R79 to R92). An error of the suffix is reported before one of the operands; the
spec orders errors between lines only (R95). DESIGN CHOICE: log 21. -/
def instrFields (ev : Evaluator) (b : Bindings) (op : SourceOp) (s : Option Text) (arg : Text) :
    Except AsmError Fields :=
  match op with
  | .push => macroForm .big pushOperand s arg
  | .pop => macroForm .hia popOperand s arg
  | .core c => (checkSuffix c.kind s).bind fun x => coreForm ev b c x arg

/-- A data word: the value of the expression, unchanged, which must be in `Val` (R93, D25). That a value outside is
Incomprehensible is the model's. DESIGN CHOICE: log 15. -/
def dataWord (ev : Evaluator) (b : Bindings) (line : Text) : Except AsmError Int :=
  match ev line b with
  | none => .error .incomprehensible
  | some v => if Config.valMin ≤ v ∧ v ≤ Config.valMax then .ok v else .error .incomprehensible

/-- The word of an addressed line (R79, R93). -/
def encodeLine (ev : Evaluator) (b : Bindings) (line : Text) : Except AsmError Int :=
  match lookupOp (splitSuffix (firstToken line).1).1 with
  | some op => (instrFields ev b op (splitSuffix (firstToken line).1).2 (firstToken line).2).map pack
  | none => dataWord ev b line

/-- How many cells the text of a reservation skips; evaluated without bindings (R77). -/
def reservation (ev : Evaluator) (arg : Text) : Except AsmError Nat :=
  if arg.isEmpty then .error .missingOperand
  else
    (evalExpr ev [] arg).bind fun n => if n < 0 then .error .negativeReservation else .ok n.toNat

/-- The bindings after a line's optional label, bound to the counter's current value (R76). A label must not be empty
(D25); that an empty one is Incomprehensible is the model's. DESIGN CHOICE: log 15. -/
def bindLabel (l : Option Text) (counter : Nat) (b : Bindings) : Except AsmError Bindings :=
  match l with
  | none => .ok b
  | some t => if t.isEmpty then .error .incomprehensible else .ok ((t, (counter : Int)) :: b)

/-- The first pass: addresses and labels (R76 to R78). -/
def resolveLabels (ev : Evaluator) : List Text → Nat → Bindings → Except AsmError (List SourceLine × Bindings)
  | [], _, b => .ok ([], b)
  | line :: rest, counter, b =>
    (bindLabel (splitLabel line).1 counter b).bind fun b' =>
      if (splitLabel line).2.isEmpty then resolveLabels ev rest counter b'
      else if upper (firstToken (splitLabel line).2).1 = "RESGR".toList then
        (reservation ev (firstToken (splitLabel line).2).2).bind fun n => resolveLabels ev rest (counter + n) b'
      else
        (resolveLabels ev rest (counter + 1) b').map fun r => (⟨counter, (splitLabel line).2⟩ :: r.1, r.2)

/-- The second pass: one pair for each addressed line, in order; the first error ends it (R81, R95). -/
def encodeLines (ev : Evaluator) (b : Bindings) : List SourceLine → Except AsmError (List (Int × Int))
  | [] => .ok []
  | l :: rest =>
    (encodeLine ev b l.text).bind fun w =>
      (encodeLines ev b rest).map fun ps => ((l.address : Int), w) :: ps

/-- The assembler over an expression evaluator (R73, R84): the pairs, or the first error. -/
def assembleWith (ev : Evaluator) (text : Text) : Except AsmError (List (Int × Int)) :=
  (resolveLabels ev (normalize text) 0 []).bind fun r => encodeLines ev r.2 r.1

/-- The assembler with the expressions this spec defines (D29). -/
def assemble (text : String) : Except AsmError (List (Int × Int)) := assembleWith evalSubset text.toList

end Sys2Proof.Asm
end

