-- ==== Sys2Proof/Machine/Arbiter.lean ====
section
/-!
DEFINITION. The memory accesses of one instruction cycle, in the order the arbiter makes them (`20_memory.md` R38).
The step is one atomic transition (R101), so this sequence is no part of State; it is computed beside it (log 6).
-/

namespace Sys2Proof.Machine

/-- One access of one whole word (`20_memory.md` R37). -/
inductive Access where
  | read (a : Addr)
  | write (a : Addr) (v : Int)
  deriving DecidableEq, Repr

/-- The reads of the value stage: none, one or two of them (R38, `40_cycle_decode_resolve.md` R108). -/
def valueReads (m : Interp) (a : Int) (s : State) : List Access :=
  match m with
  | .value => []
  | .address => []
  | .direct => [.read (addressOf a)]
  | .indirect => [.read (addressOf a), .read (addressOf (s.memRead a))]

/-- The accesses of an operand-taking instruction after the fetch: the value stage's, then the operation's own; none
when the indexation stage faults. -/
def operandAccesses (o : Operand) (s : State) (own : Int → State → List Access) : List Access :=
  match indexStage o.disp o.index s with
  | .error _ => []
  | .ok (a, t) => valueReads o.interp a t ++ own (valueStage o.interp a t) t

/-- No access of the operation's own (R38). -/
def noAccess (_v : Int) (_t : State) : List Access := []

/-- BIG's store (R38, R121). -/
def storeAccess (a : Reg) (v : Int) (t : State) : List Access := [.write (addressOf v) (t.reg a)]

/-- SBR's store of the return address; none when the decrement overflows (R38, R142). -/
def callAccess (_v : Int) (t : State) : List Access :=
  match fit (t.reg Config.spCall - 1) with
  | none => []
  | some sp => [.write (addressOf sp) (expandAddress t.ip)]

/-- The accesses of an instruction after its fetch, in order (R38). -/
def instrAccesses (i : Instr) (s : State) : List Access :=
  match i with
  | .hia _ o => operandAccesses o s noAccess
  | .big a o => operandAccesses o s (storeAccess a)
  | .opt _ o => operandAccesses o s noAccess
  | .aft _ o => operandAccesses o s noAccess
  | .ver _ o => operandAccesses o s noAccess
  | .del _ o => operandAccesses o s noAccess
  | .mod _ o => operandAccesses o s noAccess
  | .vgl _ o => operandAccesses o s noAccess
  | .spr o => operandAccesses o s noAccess
  | .vsp _ o => operandAccesses o s noAccess
  | .sbr o => operandAccesses o s callAccess
  | .ktg => [.read (addressOf (s.reg Config.spCall))]
  | .dru => []
  | .nwl => []
  | .drs => []
  | .nop => []
  | .stp => []
  | .bst n => operandAccesses pushOperand s (storeAccess n)
  | .hst _ => operandAccesses popOperand s noAccess

/-- All accesses of one cycle: the fetch, then those of the instruction; a stopped machine makes none (R38, R100). -/
def State.accesses (s : State) : List Access :=
  if s.stopped then []
  else
    .read s.ip ::
      match decode s.fetch with
      | .error _ => []
      | .ok i => instrAccesses i s.advance

/-- Memory after one access. -/
def Access.apply (m : Memory) : Access → Memory
  | .read _ => m
  | .write a v => m.write a v

end Sys2Proof.Machine
end

