-- ==== Sys2Proof/Machine/HostPort.lean ====
section
/-!
DEFINITION. The block's interfaces to the outside (`10_state.md` R25 to R28): reset input, load port, run control
and status outputs, cycle guard; and the boot sequence (`70_reset_and_hazards.md` R182).
-/

namespace Sys2Proof.Machine

/-- The reset input (R25): every piece of state takes its reset value, memory and output included (R180). -/
def State.resetInput (_s : State) : State := State.reset

/-- The load port (R26): each pair performs `MemWrite(address, 1, word)`, in the order given. That it is used only
between reset and the start of the run, and with words in `Val`, is the host's part (log 17). -/
def State.load (s : State) : List (Int × Int) → State
  | [] => s
  | (a, w) :: rest => State.load (s.memWrite a w) rest

/-- Reset, then load: the state the host starts the run from (R182). -/
def boot (pairs : List (Int × Int)) : State := State.reset.load pairs

/-- What the host can observe (R27). -/
structure Observation where
  halted : Bool
  fault : Option Fault
  out : List OutToken
  /-- the whole state, once the machine has stopped -/
  full : Option State
  deriving DecidableEq, Repr

/-- The status outputs (R27). -/
def State.observe (s : State) : Observation :=
  { halted := s.halted
    fault := s.fault
    out := s.out
    full := if s.stopped then some s else none }

/-- The state after `n` cycle requests, back to back (R27); a stopped machine performs none (R100). -/
def cycles : Nat → State → State
  | 0, s => s
  | n + 1, s =>
    match step s with
    | .next t => cycles n t
    | .fault _ => s
    | .refused _ => s

/-- The state after `n` cycle requests under a cycle guard (R28): the host stops issuing cycles after `guard` of
them, and the expiry changes no state. -/
def guardedCycles (guard : Option Nat) (n : Nat) (s : State) : State :=
  match guard with
  | none => cycles n s
  | some g => cycles (min n g) s

/-- The host's run of a loaded program, under the guard R5 gives this hardware (none; log 13). -/
def hostRun (n : Nat) (pairs : List (Int × Int)) : State := guardedCycles Config.maxCycles n (boot pairs)

end Sys2Proof.Machine
end

