-- ==== Sys2Proof/Safety.lean ====
section
/-!
DEFINITION. The terms claims are stated in: when a state is valid, what a state looks like from outside (registers
and cells one by one), how the rules of `40_cycle_decode_resolve.md` read as plain numbers, and what a safe run is.
-/

namespace Sys2Proof.Machine

/-! ### Values and states -/

/-- `VAL_MIN <= v <= VAL_MAX` (`00_scope.md` R6). -/
abbrev Fits (v : Int) : Prop := Config.valMin ≤ v ∧ v ≤ Config.valMax

/-- The running condition (`40_cycle_decode_resolve.md` R100). -/
abbrev State.Running (s : State) : Prop := s.halted = false ∧ s.fault = none

/-- The states the machine can be in: memory in its canonical form, every register, cell and printed value in `Val`
(`10_state.md` R10, R19, R21), and never both halted and faulted (`40_cycle_decode_resolve.md` R100). -/
structure State.Valid (s : State) : Prop where
  mem_wf : s.mem.wf = true
  regs_fit : ∀ i, Fits (s.reg i)
  cells_fit : ∀ a, Fits (s.mem.read a)
  out_fits : ∀ n, OutToken.value n ∈ s.out → Fits n
  one_condition : ¬(s.halted = true ∧ s.fault.isSome = true)

/-- A state seen register by register and cell by cell. -/
structure View where
  regs : Reg → Int
  cells : Addr → Int
  ip : Addr
  cc : CondCode
  halted : Bool
  fault : Option Fault
  out : List OutToken

/-- What a state looks like. -/
def State.view (s : State) : View :=
  { regs := s.reg
    cells := s.mem.read
    ip := s.ip
    cc := s.cc
    halted := s.halted
    fault := s.fault
    out := s.out }

/-- The answer is a next state that looks like `v`. -/
def EndsIn (r : Result) (v : View) : Prop := ∃ t, r = .next t ∧ t.view = v

/-! ### Operand resolution in numbers (`40_cycle_decode_resolve.md` R106 to R109) -/

/-- The register a mode-2 changes, and by how much (R106, R107). -/
def indexChange : Indexation → Option (Reg × Int)
  | .none => none
  | .plain _ => none
  | .preInc k => some (k, 1)
  | .postInc k => some (k, 1)
  | .preDec k => some (k, -1)
  | .postDec k => some (k, Config.postDecDelta)

/-- The registers after a complete indexation stage (R106). -/
def regsAfterIndex (o : Operand) (s : State) : Reg → Int :=
  match indexChange o.index with
  | none => s.reg
  | some (k, d) => Function.update s.reg k (s.reg k + d)

/-- The adjusted operand: with the new index value in the pre modes, the old one in the others (R106). -/
def adjustedOperand (o : Operand) (s : State) : Int :=
  match o.index with
  | .none => o.disp
  | .plain k => o.disp + s.reg k
  | .preInc k => o.disp + (s.reg k + 1)
  | .postInc k => o.disp + s.reg k
  | .preDec k => o.disp + (s.reg k - 1)
  | .postDec k => o.disp + s.reg k

/-- The resolved operand `v` (R108). -/
def resolvedOperand (o : Operand) (s : State) : Int :=
  match o.interp with
  | .value => adjustedOperand o s
  | .address => adjustedOperand o s % 10000
  | .direct => s.mem.read (addressOf (adjustedOperand o s))
  | .indirect => s.mem.read (addressOf (s.mem.read (addressOf (adjustedOperand o s))))

/-- The condition on registers and operand alone under which the indexation stage does not overflow (R109). -/
def Resolvable (o : Operand) (s : State) : Prop :=
  match o.index with
  | .none => True
  | .plain k => Fits (o.disp + s.reg k)
  | .preInc k => Fits (s.reg k + 1) ∧ Fits (o.disp + (s.reg k + 1))
  | .postInc k => Fits (o.disp + s.reg k) ∧ Fits (s.reg k + 1)
  | .preDec k => Fits (s.reg k - 1) ∧ Fits (o.disp + (s.reg k - 1))
  | .postDec k => Fits (o.disp + s.reg k) ∧ Fits (s.reg k + Config.postDecDelta)

/-- The registers when the indexation stage overflows: only a pre mode whose own change fitted has written its
register (`60_exceptions.md` R162). -/
def regsAtIndexFault (o : Operand) (s : State) : Reg → Int :=
  match o.index with
  | .none => s.reg
  | .plain _ => s.reg
  | .preInc k => if Fits (s.reg k + 1) then Function.update s.reg k (s.reg k + 1) else s.reg
  | .postInc _ => s.reg
  | .preDec k => if Fits (s.reg k - 1) then Function.update s.reg k (s.reg k - 1) else s.reg
  | .postDec _ => s.reg

/-- Words with the function code `code` and legal mode digits are the instruction `mk` of their acc digit and their
operand (`30_encoding.md` R51, R61, R62). -/
def SelectedBy (code : Nat) (mk : Reg → Operand → Instr) : Prop :=
  ∀ w f o, unpack w = some f → f.op = code → decodeOperand f = .ok o → decodeCore w = .ok (mk f.acc o)

/-- A running machine that fetches a word with the function code `code`, whatever its other digits, ends the cycle
in the state that `change` makes of the advanced one (`40_cycle_decode_resolve.md` R104). -/
def CycleOf (code : Nat) (change : View → View) : Prop :=
  ∀ (s : State) (f : Fields), s.Running → unpack s.fetch = some f → f.op = code →
    EndsIn (step s) (change s.advance.view)

/-- Registers an instruction may write, as `10_state.md` R13 lists them. -/
def mayWrite (i : Instr) : List Reg :=
  (match i.operand? with
    | none => []
    | some o =>
      match indexChange o.index with
      | none => []
      | some (k, _) => [k]) ++
  match i with
  | .hia a _ => [a]
  | .big _ _ => []
  | .opt a _ => [a]
  | .aft a _ => [a]
  | .ver a _ => [a]
  | .del a _ => [a]
  | .mod a _ => [a]
  | .vgl _ _ => []
  | .spr _ => []
  | .vsp _ _ => []
  | .sbr _ => [Config.spCall]
  | .ktg => [Config.spCall]
  | .dru => []
  | .nwl => []
  | .drs => []
  | .nop => []
  | .stp => []
  | .bst _ => []
  | .hst n => [n]

/-- The cell an instruction stores to when it completes, `none` for a form that stores nothing (`20_memory.md` R38):
BIG and BST at `address_of(v)`, SBR at the decremented `x[9]`. -/
def storesTo (i : Instr) (s : State) : Option Addr :=
  match i with
  | .hia _ _ => none
  | .big _ o => some (addressOf (resolvedOperand o s))
  | .opt _ _ => none
  | .aft _ _ => none
  | .ver _ _ => none
  | .del _ _ => none
  | .mod _ _ => none
  | .vgl _ _ => none
  | .spr _ => none
  | .vsp _ _ => none
  | .sbr o => some (addressOf (regsAfterIndex o s Config.spCall - 1))
  | .ktg => none
  | .dru => none
  | .nwl => none
  | .drs => none
  | .nop => none
  | .stp => none
  | .bst _ => some (addressOf (s.reg Config.spData - 1))
  | .hst _ => none

/-- The instructions that write the condition code (`10_state.md` R18). -/
def writesCC (i : Instr) : Bool :=
  match i with
  | .hia _ _ => true
  | .big _ _ => true
  | .opt _ _ => true
  | .aft _ _ => true
  | .ver _ _ => true
  | .del _ _ => true
  | .mod _ _ => true
  | .vgl _ _ => true
  | .spr _ => false
  | .vsp _ _ => false
  | .sbr _ => false
  | .ktg => false
  | .dru => false
  | .nwl => false
  | .drs => false
  | .nop => false
  | .stp => false
  | .bst _ => true
  | .hst _ => true

/-! ### Runs (`40_cycle_decode_resolve.md` R114) -/

/-- The run from `s` ends normally: some cycle halts it. -/
def EndsNormally (s : State) : Prop := ∃ n, (cycles n s).halted = true

/-- The run from `s` ends by a fault. -/
def EndsByFault (s : State) : Prop := ∃ n, (cycles n s).fault.isSome = true

/-- A safe run: no cycle ever faults. -/
def NeverFaults (s : State) : Prop := ∀ n, (cycles n s).fault = none

end Sys2Proof.Machine
end

