-- ==== Sys2Proof/Certificates/Slice0/Obligations.lean ====
section
/-!
DEFINITION. The statements for the provers. Unless a docstring says otherwise each holds in every state, also in
states no run reaches; `exec` runs on the state after the advance of `ip` (log 12). `D<n>` names a row of
`92_eei_decisions.md`: a choice of the spec itself, where its source is silent.
-/

open Sys2Proof Sys2Proof.Machine

/-! ### Reset, load, and the invariant -/

/-- R25, R29: reset puts every piece of state to its reset value, whatever the state was (`fault` by D13, `out` by
D17). -/
def Obligations.ResetPutsEveryPieceOfState : Prop :=
  ∀ s : State, s.resetInput = State.reset ∧
    State.reset.view =
      { regs := fun _ => 0, cells := fun _ => 0, ip := 0, cc := .equal, halted := false, fault := none, out := [] }

/-- The reset state is valid. -/
def Obligations.ResetStateIsValid : Prop := State.reset.Valid

/-- From every valid state, the next state of a step is valid: memory stays canonical, every register, cell and
printed value stays in `Val`, and the machine is never both halted and faulted. The canonical form is the model's
(log 7), the range R11's (log 1, log 18). -/
def Obligations.EveryStepKeepsValid : Prop :=
  ∀ s t : State, s.Valid → step s = .next t → t.Valid

/-- R26: each pair of the load port performs `MemWrite`, a later pair to the same cell overwrites an earlier one, and
nothing but memory changes. -/
def Obligations.LoadPortWritesEachPairInOrder : Prop :=
  ∀ (s : State) (ps : List (Int × Int)) (a w : Int),
    (s.load []) = s ∧
    (s.load (ps ++ [(a, w)])).view =
      { (s.load ps).view with cells := Function.update (s.load ps).view.cells (addressOf a) w } ∧
    (s.load ps).view = { s.view with cells := (s.load ps).view.cells }

/-- A machine booted with words in `Val` is valid and running. -/
def Obligations.BootedMachineIsValid : Prop :=
  ∀ ps : List (Int × Int), (∀ p ∈ ps, Fits p.2) → (boot ps).Valid ∧ (boot ps).Running

/-! ### The cycle -/

/-- R101: a running machine whose fetched word decodes to `i` runs `i` on the state with `ip` advanced by one,
modulo 10,000; nothing else is added around `exec`. -/
def Obligations.StepRunsTheDecodedInstruction : Prop :=
  ∀ (s : State) (i : Instr), s.Running → decode (s.mem.read s.ip) = .ok i →
    step s = exec i s.advance ∧
    s.advance.view = { s.view with ip := addressOf ((s.ip.val : Int) + 1) }

/-- R102: a word that is none, or whose opcode is not one of the 17 codes, ends the cycle with `UnknownOpcode`, with
`ip` advanced and nothing else changed (D16 for a word that is none). -/
def Obligations.UnknownOpcodeEndsTheCycle : Prop :=
  ∀ s : State, s.Running →
    (unpack s.fetch = none ∨ ∃ f, unpack s.fetch = some f ∧
      f.op ∉ [11, 12, 21, 22, 23, 24, 25, 31, 32, 33, 41, 42, 72, 73, 74, 98, 99]) →
    EndsIn (step s) { s.view with ip := addressOf ((s.ip.val : Int) + 1), fault := some .unknownOpcode }

/-- R103: the mode-2 digit, then the mode-1 digit, then VSP's predicate digit are checked, before any side effect but
the advance of `ip`; a word that passes them decodes (order D14, predicate D26). -/
def Obligations.ModeDigitsAreCheckedInOrder : Prop :=
  ∀ (s : State) (f : Fields), s.Running → unpack s.fetch = some f →
    f.op ∈ [11, 12, 21, 22, 23, 24, 25, 31, 32, 33, 41] →
    (f.m2 ∉ [1, 2, 3, 4, 5, 6] →
      EndsIn (step s) { s.view with ip := addressOf ((s.ip.val : Int) + 1), fault := some .unknownMode2 }) ∧
    (f.m2 ∈ [1, 2, 3, 4, 5, 6] → f.m1 ∉ [1, 2, 3, 4] →
      EndsIn (step s) { s.view with ip := addressOf ((s.ip.val : Int) + 1), fault := some .unknownMode1 }) ∧
    (f.m2 ∈ [1, 2, 3, 4, 5, 6] → f.m1 ∈ [1, 2, 3, 4] → f.op = 33 → f.acc ∉ [1, 2, 3, 4, 5, 6] →
      EndsIn (step s) { s.view with ip := addressOf ((s.ip.val : Int) + 1), fault := some .badPredicate }) ∧
    (f.m2 ∈ [1, 2, 3, 4, 5, 6] → f.m1 ∈ [1, 2, 3, 4] → (f.op = 33 → f.acc ∈ [1, 2, 3, 4, 5, 6]) →
      ∃ i, decode s.fetch = .ok i)

/-- R68: a word is rejected for its opcode exactly when the opcode is none of the 17 codes (D3), and fetching a word the
decoder rejects so raises `UnknownOpcode`, also a number outside `(-10^10, 10^10)`, which is no word (R102, D16); the
all-zero word, which every cell holds after reset, is rejected so. -/
def Obligations.OpcodeSetIsClosed : Prop :=
  (∀ (w : Int) (f : Fields), unpack w = some f →
    (decode w = .error .unknownOpcode ↔
      f.op ∉ [11, 12, 21, 22, 23, 24, 25, 31, 32, 33, 41, 42, 72, 73, 74, 98, 99])) ∧
  (∀ s : State, s.Running → decode s.fetch = .error .unknownOpcode →
    EndsIn (step s) { s.view with ip := addressOf ((s.ip.val : Int) + 1), fault := some .unknownOpcode }) ∧
  decode 0 = .error .unknownOpcode ∧ ∀ n : Int, State.reset.memRead n = 0

/-- R69: an illegal mode digit of an operand-taking instruction is a fatal fault, also the digits 0 and 9. -/
def Obligations.IllegalModeDigitsFault : Prop :=
  ∀ (s : State) (f : Fields), s.Running → unpack s.fetch = some f →
    f.op ∈ [11, 12, 21, 22, 23, 24, 25, 31, 32, 33, 41] → (f.m2 ∉ [1, 2, 3, 4, 5, 6] ∨ f.m1 ∉ [1, 2, 3, 4]) →
    ∃ c t, step s = .next t ∧ t.fault = some c ∧
      (c = .unknownMode2 ∧ f.m2 ∉ [1, 2, 3, 4, 5, 6] ∨ c = .unknownMode1 ∧ f.m1 ∉ [1, 2, 3, 4])

/-- R61: the opcode digits alone select the operation. -/
def Obligations.OpcodeDigitsSelectTheOperation : Prop :=
  ∀ (w : Int) (f : Fields) (i : Instr), unpack w = some f → decode w = .ok i → i.opcode.code = f.op

/-- R100: the machine is in exactly one of three conditions; a halted or faulted machine changes nothing, for ever;
a running machine goes on, halts by STP alone, or faults. After reset it is running. The faulted condition is D13's. -/
def Obligations.RunningHaltedFaulted : Prop :=
  State.reset.Running ∧
  (∀ s : State, s.Valid →
    (s.Running ∧ s.halted = false ∧ s.fault = none) ∨ (¬s.Running ∧ s.halted = true ∧ s.fault = none) ∨
      (¬s.Running ∧ s.halted = false ∧ s.fault.isSome = true)) ∧
  (∀ (s : State) (n : Nat), ¬s.Running → step s = .next s ∧ cycles n s = s) ∧
  ∀ s : State, s.Running → ∃ t, step s = .next t ∧
    (t.halted = true ↔ decode s.fetch = .ok .stp) ∧ (t.halted = true → t.fault = none)

/-- R161: raising a fault records its cause and changes nothing else, and the machine performs no further cycle
(D13, log 5). -/
def Obligations.RaiseRecordsTheCauseAndStops : Prop :=
  ∀ (s : State) (f : Fault),
    (s.raise f).view = { s.view with fault := some f } ∧ step (s.raise f) = .next (s.raise f)

/-- R160, R162: a cycle that ends in a fault has written neither `ip` beyond its advance, nor memory, nor the
condition code, nor the output, so the offending word is still in memory at `address_of(ip - 1)` (D14). -/
def Obligations.FaultingCycleKeepsTheOffendingWord : Prop :=
  ∀ s t : State, s.Running → step s = .next t → t.fault.isSome = true →
    t.view = { s.view with regs := t.reg, ip := addressOf ((s.ip.val : Int) + 1), fault := t.fault } ∧
    t.memRead ((t.ip.val : Int) - 1) = s.fetch

/-! ### Memory -/

/-- R32: `MemWrite` sets cell `address_of(addr)` to the value unchanged, and changes nothing else. -/
def Obligations.MemWriteSetsOneCell : Prop :=
  ∀ (s : State) (n v : Int),
    (s.memWrite n v).view = { s.view with cells := Function.update s.view.cells (addressOf n) v }

/-- R42: a read gives the value of the latest earlier write to the same cell. -/
def Obligations.ReadGivesTheLatestWrite : Prop :=
  ∀ (s : State) (n v k : Int),
    (k % 10000 = n % 10000 → (s.memWrite n v).memRead k = v) ∧
    (k % 10000 ≠ n % 10000 → (s.memWrite n v).memRead k = s.memRead k)

/-- Memories in canonical form that read the same are the same (the model's own form of memory, log 7). -/
def Obligations.EqualReadsAreEqualMemories : Prop :=
  ∀ m m' : Memory, m.wf = true → m'.wf = true → (∀ a, m.read a = m'.read a) → m = m'

/-- R45: a word stored into the cell at `ip` is the word the very next cycle fetches. -/
def Obligations.StoredWordIsFetchedNext : Prop :=
  ∀ (a : Reg) (o : Operand) (s t : State), Resolvable o s → addressOf (resolvedOperand o s) = s.ip →
    exec (.big a o) s = .next t → t.ip = s.ip ∧ t.fetch = regsAfterIndex o s a

/-- R38: the accesses of a cycle account for everything it does to memory, and a running machine makes 1 to 4 of
them, the first the fetch. -/
def Obligations.AccessesAccountForMemory : Prop :=
  (∀ s t : State, step s = .next t → t.mem = s.accesses.foldl Access.apply s.mem) ∧
  ∀ s : State, s.Running →
    s.accesses.head? = some (.read s.ip) ∧ 1 ≤ s.accesses.length ∧ s.accesses.length ≤ 4

/-! ### The codec -/

/-- R54: `address_of` is the non-negative remainder modulo 10,000. -/
def Obligations.AddressOfIsTheRemainder : Prop :=
  ∀ n : Int, ((addressOf n).val : Int) = n % 10000 ∧ addressOf n = addressOf (n + 10000)

/-- R55: `expand_address` is `u` up to 4999 and `u - 10000` from 5000 on, in `[-5000, 4999]`. -/
def Obligations.ExpandAddressRestoresTheSign : Prop :=
  ∀ u : Addr, (u.val ≤ 4999 → expandAddress u = u.val) ∧ (5000 ≤ u.val → expandAddress u = (u.val : Int) - 10000) ∧
    -5000 ≤ expandAddress u ∧ expandAddress u ≤ 4999

/-- R56: the codec laws (a) to (d), and the one for negative words. -/
def Obligations.CodecLaws : Prop :=
  (∀ f : Fields, f.valid = true → unpack (pack f) = some f) ∧
  (∀ w : Int, 0 ≤ w → w < 10 ^ 10 → ∃ f, unpack w = some f ∧ pack f = w) ∧
  (∀ n : Int, addressOf (expandAddress (addressOf n)) = addressOf n) ∧
  (∀ n : Int, -5000 ≤ n → n ≤ 4999 → expandAddress (addressOf n) = n) ∧
  ∀ w : Int, -(10 ^ 10) < w → w < 0 → ∃ f, unpack w = some f ∧ pack f = w + 10 ^ 10

/-- R58: a negative word above `-10^10` is the same instruction as its ten's complement, but not the same content of a
cell: a load returns the word itself. -/
def Obligations.NegativeWordDecodesAsItsComplement : Prop :=
  ∀ w : Int, -(10 ^ 10) < w → w < 0 →
    unpack w = unpack (w + 10 ^ 10) ∧ decode w = decode (w + 10 ^ 10) ∧
    ∀ (s : State) (n : Int), (s.memWrite n w).memRead n = w

/-- Decoding the word of a well-formed instruction gives it back, for every constructor and every operand. -/
def Obligations.DecodeUndoesEncode : Prop :=
  ∀ i : Instr, i.wellFormed = true → decode (encode i) = .ok i

/-- Words written out digit by digit from R51 and R62 to R65 (codes and digits D3 to D6) decode to the instruction they
stand for. -/
def Obligations.WrittenOutWordsDecode : Prop :=
  decode 1131190005 = .ok (.hia 1 ⟨.direct, .none, 5⟩) ∧
  decode 1224010013 = .ok (.big 0 ⟨.address, .postInc 1, 13⟩) ∧
  decode 2211199995 = .ok (.aft 1 ⟨.value, .none, -5⟩) ∧
  decode 3321490002 = .ok (.vsp .positive ⟨.address, .none, 2⟩) ∧
  decode 4122990006 = .ok (.sbr ⟨.address, .plain 9, 6⟩) ∧
  decode 4200000000 = .ok .ktg ∧
  decode (-1) = .ok .stp

/-- R67: the digits the hardware ignores: (a) the low eight of a zero-operand word, (b) the acc digit of SPR and SBR,
(c) the idx digit without indexation, (d) VGL's acc digit, which selects no effect (D15). -/
def Obligations.IgnoredDigitsSelectNothing : Prop :=
  (∀ (w w' : Int) (f f' : Fields), unpack w = some f → unpack w' = some f' → f.op = f'.op →
    f.op ∈ [42, 72, 73, 74, 98, 99] → decode w = decode w' ∧ ∃ i, decode w = .ok i ∧ i.operand? = none) ∧
  (∀ (w w' : Int) (f : Fields) (d : Fin 10), unpack w = some f → unpack w' = some { f with acc := d } →
    f.op = 32 ∨ f.op = 41 → decode w = decode w') ∧
  (∀ (w w' : Int) (f : Fields) (d : Fin 10), unpack w = some f → unpack w' = some { f with idx := d } →
    f.m2 = 1 → decode w = decode w') ∧
  ∀ (a b : Reg) (o : Operand) (s : State), exec (.vgl a o) s = exec (.vgl b o) s

/-- R92: the macros' words are those of their expansions, and the decoder gives them the macro's name (log 8). -/
def Obligations.MacroWordsAreTheirExpansions : Prop :=
  ∀ n : Reg,
    encode (.bst n) = 1225080000 + 100000 * (n.val : Int) ∧ encode (.bst n) = encode (.big n pushOperand) ∧
    encode (.hst n) = 1134080000 + 100000 * (n.val : Int) ∧ encode (.hst n) = encode (.hia n popOperand) ∧
    decodeCore (encode (.bst n)) = .ok (.big n pushOperand) ∧ decode (encode (.bst n)) = .ok (.bst n) ∧
    decodeCore (encode (.hst n)) = .ok (.hia n popOperand) ∧ decode (encode (.hst n)) = .ok (.hst n)

/-- R122, R123: push and pop do what the instruction they expand to does; pop, in a state whose register 8 is in
`Val`. -/
def Obligations.MacrosRunAsTheirExpansions : Prop :=
  ∀ (n : Reg) (s : State),
    exec (.bst n) s = exec (.big n pushOperand) s ∧
    (Fits (s.reg 8) → exec (.hst n) s = exec (.hia n popOperand) s)

/-- R61: naming the macros changes no cycle of a valid state: what the decoder's instruction does is what the core
instruction of the word does. -/
def Obligations.NamingTheMacrosChangesNoCycle : Prop :=
  ∀ (w : Int) (i j : Instr) (s : State), s.Valid → decode w = .ok i → decodeCore w = .ok j → exec i s = exec j s

/-! ### Operand resolution -/

/-- R106: the six indexation kinds, when nothing overflows. -/
def Obligations.IndexationStageTable : Prop :=
  ∀ (d : Int) (k : Reg) (s : State),
    indexStage d .none s = .ok (d, s) ∧
    (Fits (d + s.reg k) → indexStage d (.plain k) s = .ok (d + s.reg k, s)) ∧
    (Fits (s.reg k + 1) → Fits (d + (s.reg k + 1)) →
      indexStage d (.preInc k) s = .ok (d + (s.reg k + 1), s.setReg k (s.reg k + 1))) ∧
    (Fits (d + s.reg k) → Fits (s.reg k + 1) →
      indexStage d (.postInc k) s = .ok (d + s.reg k, s.setReg k (s.reg k + 1))) ∧
    (Fits (s.reg k - 1) → Fits (d + (s.reg k - 1)) →
      indexStage d (.preDec k) s = .ok (d + (s.reg k - 1), s.setReg k (s.reg k - 1))) ∧
    (Fits (d + s.reg k) → Fits (s.reg k + Config.postDecDelta) →
      indexStage d (.postDec k) s = .ok (d + s.reg k, s.setReg k (s.reg k + Config.postDecDelta)))

/-- R109: an overflow of the indexation stage ends the cycle of every core instruction that takes an operand with
`ArithmeticOverflow` (D2); only a pre mode whose own change fitted has written its register (D14). -/
def Obligations.IndexationOverflowFaults : Prop :=
  ∀ (i : Instr) (o : Operand) (s : State), i.operand? = some o → i.expand = i → ¬Resolvable o s →
    EndsIn (exec i s) { s.view with regs := regsAtIndexFault o s, fault := some .arithmeticOverflow }

/-- R108: the four interpretations. -/
def Obligations.ValueStageTable : Prop :=
  ∀ (a : Int) (s : State),
    valueStage .value a s = a ∧
    valueStage .address a s = a % 10000 ∧
    valueStage .direct a s = s.mem.read (addressOf a) ∧
    valueStage .indirect a s = s.mem.read (addressOf (s.mem.read (addressOf a)))

/-- Post-decrement acts as post-increment: the model's choice of the parameter `POSTDEC_DELTA`, log 2 (R107 takes
the same value by decision D9). -/
def Obligations.PostDecrementActsAsPostIncrement : Prop :=
  ∀ (d : Int) (k : Reg) (s : State), indexStage d (.postDec k) s = indexStage d (.postInc k) s

/-! ### Load and store -/

/-- R120: `x[a] <- v`, `CC <- sign(v)`. -/
def Obligations.HiaLoadsTheResolvedOperand : Prop :=
  SelectedBy 11 .hia ∧
  ∀ (a : Reg) (o : Operand) (s : State), Resolvable o s →
    EndsIn (exec (.hia a o) s)
      { s.view with
        regs := Function.update (regsAfterIndex o s) a (resolvedOperand o s)
        cc := sign (resolvedOperand o s) }

/-- R121: the accumulator, read after the indexation stage, is stored unchanged at `address_of(v)`, and the condition
code is that of the value stored. -/
def Obligations.BigStoresTheAccumulator : Prop :=
  SelectedBy 12 .big ∧
  ∀ (a : Reg) (o : Operand) (s : State), Resolvable o s →
    EndsIn (exec (.big a o) s)
      { s.view with
        regs := regsAfterIndex o s
        cells := Function.update s.mem.read (addressOf (resolvedOperand o s)) (regsAfterIndex o s a)
        cc := sign (regsAfterIndex o s a) }

/-- R122: push, and its overflow. -/
def Obligations.BstPushesTheRegister : Prop :=
  ∀ (n : Reg) (s : State),
    (Fits (s.reg 8 - 1) →
      EndsIn (exec (.bst n) s)
        { s.view with
          regs := Function.update s.reg 8 (s.reg 8 - 1)
          cells := Function.update s.mem.read (addressOf (s.reg 8 - 1))
            (Function.update s.reg 8 (s.reg 8 - 1) n)
          cc := sign (Function.update s.reg 8 (s.reg 8 - 1) n) }) ∧
    (¬Fits (s.reg 8 - 1) → EndsIn (exec (.bst n) s) { s.view with fault := some .arithmeticOverflow })

/-- R123: pop, and its overflow. -/
def Obligations.HstPopsIntoTheRegister : Prop :=
  ∀ (n : Reg) (s : State),
    (Fits (s.reg 8 + 1) →
      EndsIn (exec (.hst n) s)
        { s.view with
          regs := Function.update (Function.update s.reg 8 (s.reg 8 + 1)) n (s.mem.read (addressOf (s.reg 8)))
          cc := sign (s.mem.read (addressOf (s.reg 8))) }) ∧
    (¬Fits (s.reg 8 + 1) → EndsIn (exec (.hst n) s) { s.view with fault := some .arithmeticOverflow })

/-! ### Arithmetic -/

/-- R125: the sum, and its overflow. -/
def Obligations.OptAdds : Prop :=
  SelectedBy 21 .opt ∧
  ∀ (a : Reg) (o : Operand) (s : State), Resolvable o s →
    (Fits (regsAfterIndex o s a + resolvedOperand o s) →
      EndsIn (exec (.opt a o) s)
        { s.view with
          regs := Function.update (regsAfterIndex o s) a (regsAfterIndex o s a + resolvedOperand o s)
          cc := sign (resolvedOperand o s) }) ∧
    (¬Fits (regsAfterIndex o s a + resolvedOperand o s) →
      EndsIn (exec (.opt a o) s) { s.view with regs := regsAfterIndex o s, fault := some .arithmeticOverflow })

/-- R126: the difference, and its overflow. -/
def Obligations.AftSubtracts : Prop :=
  SelectedBy 22 .aft ∧
  ∀ (a : Reg) (o : Operand) (s : State), Resolvable o s →
    (Fits (regsAfterIndex o s a - resolvedOperand o s) →
      EndsIn (exec (.aft a o) s)
        { s.view with
          regs := Function.update (regsAfterIndex o s) a (regsAfterIndex o s a - resolvedOperand o s)
          cc := sign (resolvedOperand o s) }) ∧
    (¬Fits (regsAfterIndex o s a - resolvedOperand o s) →
      EndsIn (exec (.aft a o) s) { s.view with regs := regsAfterIndex o s, fault := some .arithmeticOverflow })

/-- R127: the product, and its overflow. -/
def Obligations.VerMultiplies : Prop :=
  SelectedBy 23 .ver ∧
  ∀ (a : Reg) (o : Operand) (s : State), Resolvable o s →
    (Fits (regsAfterIndex o s a * resolvedOperand o s) →
      EndsIn (exec (.ver a o) s)
        { s.view with
          regs := Function.update (regsAfterIndex o s) a (regsAfterIndex o s a * resolvedOperand o s)
          cc := sign (resolvedOperand o s) }) ∧
    (¬Fits (regsAfterIndex o s a * resolvedOperand o s) →
      EndsIn (exec (.ver a o) s) { s.view with regs := regsAfterIndex o s, fault := some .arithmeticOverflow })

/-- R128: the quotient truncated toward zero (D10), the zero divisor (D11), and the overflow of a quotient that does not
fit (D2). -/
def Obligations.DelDivides : Prop :=
  SelectedBy 24 .del ∧
  ∀ (a : Reg) (o : Operand) (s : State), Resolvable o s →
    (resolvedOperand o s = 0 →
      EndsIn (exec (.del a o) s) { s.view with regs := regsAfterIndex o s, fault := some .divideByZero }) ∧
    (resolvedOperand o s ≠ 0 → Fits (Int.tdiv (regsAfterIndex o s a) (resolvedOperand o s)) →
      EndsIn (exec (.del a o) s)
        { s.view with
          regs := Function.update (regsAfterIndex o s) a (Int.tdiv (regsAfterIndex o s a) (resolvedOperand o s))
          cc := sign (resolvedOperand o s) }) ∧
    (resolvedOperand o s ≠ 0 → ¬Fits (Int.tdiv (regsAfterIndex o s a) (resolvedOperand o s)) →
      EndsIn (exec (.del a o) s) { s.view with regs := regsAfterIndex o s, fault := some .arithmeticOverflow })

/-- R129: the remainder that matches the truncated quotient (D10), the zero divisor (D11), and `VAL_MIN` by -1
(`93_implementation_defined.md` U3). -/
def Obligations.ModTakesTheRemainder : Prop :=
  SelectedBy 25 .mod ∧
  ∀ (a : Reg) (o : Operand) (s : State), Resolvable o s →
    (resolvedOperand o s = 0 →
      EndsIn (exec (.mod a o) s) { s.view with regs := regsAfterIndex o s, fault := some .divideByZero }) ∧
    (resolvedOperand o s = -1 → regsAfterIndex o s a = Config.valMin →
      EndsIn (exec (.mod a o) s) { s.view with regs := regsAfterIndex o s, fault := some .arithmeticOverflow }) ∧
    (resolvedOperand o s ≠ 0 → ¬(resolvedOperand o s = -1 ∧ regsAfterIndex o s a = Config.valMin) →
      EndsIn (exec (.mod a o) s)
        { s.view with
          regs := Function.update (regsAfterIndex o s) a
            (regsAfterIndex o s a - resolvedOperand o s * Int.tdiv (regsAfterIndex o s a) (resolvedOperand o s))
          cc := sign (resolvedOperand o s) })

/-- R128, R129: DEL and MOD of the same operands in `Val` either both fault or give the quotient and the remainder of
one division: `x = v * q + r`, `|r| < |v|`, and `r` is 0 or has the sign of `x`; the quotient of values in `Val`
leaves `Val` only for `VAL_MIN` by -1 (D10, D11). -/
def Obligations.QuotientAndRemainderMatch : Prop :=
  ∀ x v : Int, Fits x → Fits v →
    (v = 0 → quotientOf x v = .error .divideByZero ∧ remainderOf x v = .error .divideByZero) ∧
    (x = Config.valMin → v = -1 →
      quotientOf x v = .error .arithmeticOverflow ∧ remainderOf x v = .error .arithmeticOverflow) ∧
    (v ≠ 0 → ¬(x = Config.valMin ∧ v = -1) → ∃ q r, quotientOf x v = .ok q ∧ remainderOf x v = .ok r ∧
      x = v * q + r ∧ |r| < |v| ∧ (r = 0 ∨ sign r = sign x) ∧ Fits q ∧ Fits r)

/-! ### Compare and jump -/

/-- R135: only the condition code, from the operand alone. -/
def Obligations.VglTestsTheOperand : Prop :=
  SelectedBy 31 .vgl ∧
  ∀ (a : Reg) (o : Operand) (s : State), Resolvable o s →
    EndsIn (exec (.vgl a o) s) { s.view with regs := regsAfterIndex o s, cc := sign (resolvedOperand o s) }

/-- R136: the jump goes to `address_of(v)`, for every `v` (D12). -/
def Obligations.SprJumps : Prop :=
  SelectedBy 32 (fun _ o => .spr o) ∧
  ∀ (o : Operand) (s : State), Resolvable o s →
    EndsIn (exec (.spr o) s)
      { s.view with regs := regsAfterIndex o s, ip := addressOf (resolvedOperand o s) }

/-- R137, R110 (a): the jump is taken when the predicate of the selector digit holds of the condition code; the
operand is resolved, and the index register changed, whether or not it is. -/
def Obligations.VspJumpsWhenThePredicateHolds : Prop :=
  (∀ w f o p, unpack w = some f → f.op = 33 → decodeOperand f = .ok o → Predicate.ofDigit f.acc = some p →
    decodeCore w = .ok (.vsp p o)) ∧
  ∀ (p : Predicate) (o : Operand) (s : State), Resolvable o s →
    let taken :=
      (p.digit = 1 ∧ s.cc = .equal) ∨ (p.digit = 2 ∧ s.cc ≠ .negative) ∨ (p.digit = 3 ∧ s.cc ≠ .positive) ∨
        (p.digit = 4 ∧ s.cc = .positive) ∨ (p.digit = 5 ∧ s.cc = .negative) ∨ (p.digit = 6 ∧ s.cc ≠ .equal)
    (taken → EndsIn (exec (.vsp p o) s)
      { s.view with regs := regsAfterIndex o s, ip := addressOf (resolvedOperand o s) }) ∧
    (¬taken → EndsIn (exec (.vsp p o) s) { s.view with regs := regsAfterIndex o s })

/-- R138: the truth table, a row for each digit: positive, equal, negative. -/
def Obligations.PredicateTruthTable : Prop :=
  [1, 2, 3, 4, 5, 6].map (fun d => (Predicate.ofDigit d).map fun p =>
    (predicateHolds p .positive, predicateHolds p .equal, predicateHolds p .negative)) =
  [some (false, true, false), some (true, true, false), some (false, true, true),
    some (true, false, false), some (false, false, true), some (true, false, true)]

/-- R140: the word `322199tttt` jumps to the cell `tttt`, for every cell. -/
def Obligations.DirectJumpReachesEveryCell : Prop :=
  ∀ (s : State) (t : Addr), s.Running → s.fetch = 3221990000 + (t.val : Int) →
    EndsIn (step s) { s.view with ip := t }

/-! ### Call and return -/

/-- R142: the call, and the overflow of its stack pointer. -/
def Obligations.SbrCalls : Prop :=
  SelectedBy 41 (fun _ o => .sbr o) ∧
  ∀ (o : Operand) (s : State), Resolvable o s →
    (Fits (regsAfterIndex o s 9 - 1) →
      EndsIn (exec (.sbr o) s)
        { s.view with
          regs := Function.update (regsAfterIndex o s) 9 (regsAfterIndex o s 9 - 1)
          cells := Function.update s.mem.read (addressOf (regsAfterIndex o s 9 - 1)) (expandAddress s.ip)
          ip := addressOf (resolvedOperand o s) }) ∧
    (¬Fits (regsAfterIndex o s 9 - 1) →
      EndsIn (exec (.sbr o) s) { s.view with regs := regsAfterIndex o s, fault := some .arithmeticOverflow })

/-- R143: the return, whatever the word's low digits, and the overflow of its stack pointer. -/
def Obligations.KtgReturns : Prop :=
  (∀ (w : Int) (f : Fields), unpack w = some f → f.op = 42 → decode w = .ok .ktg) ∧
  ∀ s : State,
    (Fits (s.reg 9 + 1) →
      EndsIn (exec .ktg s)
        { s.view with
          regs := Function.update s.reg 9 (s.reg 9 + 1)
          ip := addressOf (s.mem.read (addressOf (s.reg 9))) }) ∧
    (¬Fits (s.reg 9 + 1) → EndsIn (exec .ktg s) { s.view with fault := some .arithmeticOverflow })

/-- R144: a return after a call restores `x[9]` and comes back to the instruction after the call. -/
def Obligations.ReturnUndoesCall : Prop :=
  ∀ (o : Operand) (s : State), Resolvable o s → Fits (regsAfterIndex o s 9) → Fits (regsAfterIndex o s 9 - 1) →
    ∃ t u, exec (.sbr o) s = .next t ∧ exec .ktg t = .next u ∧ u.reg = regsAfterIndex o s ∧ u.ip = s.ip ∧
      u.cc = s.cc ∧ u.out = s.out

/-! ### No-op, output, halt -/

/-- R147, R150: NOP and DRS change nothing but `ip`, whatever the word's low digits (codes D3, DRS's class D15). -/
def Obligations.NopAndDrsOnlyAdvance : Prop :=
  CycleOf 98 id ∧ CycleOf 74 id ∧
  ∀ s : State, EndsIn (exec .nop s) s.view ∧ EndsIn (exec .drs s) s.view

/-- R148, R149: DRU appends `Value(x[0])` and NWL appends `Newline`, whatever the word's low digits. -/
def Obligations.DruAndNwlAppendTheirToken : Prop :=
  CycleOf 72 (fun v => { v with out := v.out ++ [.value (v.regs 0)] }) ∧
  CycleOf 73 (fun v => { v with out := v.out ++ [.newline] }) ∧
  ∀ s : State,
    EndsIn (exec .dru s) { s.view with out := s.out ++ [.value (s.reg 0)] } ∧
    EndsIn (exec .nwl s) { s.view with out := s.out ++ [.newline] }

/-- R151: STP halts, whatever the word's low digits, and no further cycle is performed. -/
def Obligations.StpHaltsForGood : Prop :=
  CycleOf 99 (fun v => { v with halted := true }) ∧
  (∀ s : State, EndsIn (exec .stp s) { s.view with halted := true }) ∧
  ∀ (s t : State) (n : Nat), exec .stp s = .next t → cycles n t = t

/-! ### Frames -/

/-- R13: a register the rule does not list for the instruction keeps its value, also in a cycle that faults. -/
def Obligations.OtherRegistersAreUnchanged : Prop :=
  ∀ (i : Instr) (s t : State) (b : Reg), exec i s = .next t → b ∉ mayWrite i → t.reg b = s.reg b

/-- R38: a cell other than the one the instruction stores to keeps its content; a form that stores nothing keeps
every cell. -/
def Obligations.OtherCellsAreUnchanged : Prop :=
  ∀ (i : Instr) (s t : State) (a : Addr), exec i s = .next t → storesTo i s ≠ some a →
    t.mem.read a = s.mem.read a

/-- R18, R20, R21: the condition code, the halted flag and the output change only by the instructions that write
them, and the output only grows. -/
def Obligations.FlagsAndOutputHaveTheirWriters : Prop :=
  ∀ (i : Instr) (s t : State), exec i s = .next t →
    (writesCC i = false → t.cc = s.cc) ∧
    (i ≠ .stp → t.halted = s.halted) ∧
    (i ≠ .dru → i ≠ .nwl → t.out = s.out) ∧
    s.out <+: t.out

/-! ### The assembler (toolchain contract, R73) -/

/-- R91, for HIA: the register-register form encodes as `HIA.w Ri, 0(Rj)`, and its word makes the register `x[j]`
the operand. -/
def Obligations.RegisterSugarIsPlainIndexing : Prop :=
  ∀ (ev : Asm.Evaluator) (b : Asm.Bindings) (i j : Reg), ev ['0'] b = some 0 →
    Asm.encodeLine ev b ['H', 'I', 'A', ' ', 'R', Char.ofNat (48 + i.val), ',', ' ', 'R', Char.ofNat (48 + j.val)] =
      .ok (encode (.hia i ⟨.value, .plain j, 0⟩)) ∧
    Asm.encodeLine ev b ['H', 'I', 'A', '.', 'w', ' ', 'R', Char.ofNat (48 + i.val), ',', ' ', '0', '(', 'R',
      Char.ofNat (48 + j.val), ')'] = .ok (encode (.hia i ⟨.value, .plain j, 0⟩))

/-- Every word the assembler emits for an instruction line decodes, but for a conditional jump whose written
predicate digit names none (R85 to R92, R97). -/
def Obligations.AssembledInstructionsDecode : Prop :=
  ∀ (ev : Asm.Evaluator) (b : Asm.Bindings) (op : Asm.SourceOp) (sfx : Option Asm.Text) (arg : Asm.Text)
    (f : Fields), Asm.instrFields ev b op sfx arg = .ok f →
    (∃ i, decode (pack f) = .ok i) ∨ (f.op = 33 ∧ decode (pack f) = .error .badPredicate)
end

