-- ==== Sys2Proof/Laws/State.lean ====
section
/-!
SUPPORT. One lemma for each field of State after each update, true by rfl, and the lemmas that read a register or a
cell after an update; later proofs need unfold no record update.
-/

namespace Sys2Proof.Machine

/-! ### setReg -/

@[simp] theorem State.setReg_x (s : State) (i : Reg) (v : Int) : (s.setReg i v).x = s.x.set i v := rfl
@[simp] theorem State.setReg_ip (s : State) (i : Reg) (v : Int) : (s.setReg i v).ip = s.ip := rfl
@[simp] theorem State.setReg_cc (s : State) (i : Reg) (v : Int) : (s.setReg i v).cc = s.cc := rfl
@[simp] theorem State.setReg_halted (s : State) (i : Reg) (v : Int) : (s.setReg i v).halted = s.halted := rfl
@[simp] theorem State.setReg_fault (s : State) (i : Reg) (v : Int) : (s.setReg i v).fault = s.fault := rfl
@[simp] theorem State.setReg_mem (s : State) (i : Reg) (v : Int) : (s.setReg i v).mem = s.mem := rfl
@[simp] theorem State.setReg_out (s : State) (i : Reg) (v : Int) : (s.setReg i v).out = s.out := rfl
@[simp] theorem State.setReg_memRead (s : State) (i : Reg) (v : Int) (k : Int) : (s.setReg i v).memRead k = s.memRead k := rfl

/-! ### setCC -/

@[simp] theorem State.setCC_x (s : State) (c : CondCode) : (s.setCC c).x = s.x := rfl
@[simp] theorem State.setCC_ip (s : State) (c : CondCode) : (s.setCC c).ip = s.ip := rfl
@[simp] theorem State.setCC_cc (s : State) (c : CondCode) : (s.setCC c).cc = c := rfl
@[simp] theorem State.setCC_halted (s : State) (c : CondCode) : (s.setCC c).halted = s.halted := rfl
@[simp] theorem State.setCC_fault (s : State) (c : CondCode) : (s.setCC c).fault = s.fault := rfl
@[simp] theorem State.setCC_mem (s : State) (c : CondCode) : (s.setCC c).mem = s.mem := rfl
@[simp] theorem State.setCC_out (s : State) (c : CondCode) : (s.setCC c).out = s.out := rfl
@[simp] theorem State.setCC_reg (s : State) (c : CondCode) (j : Reg) : (s.setCC c).reg j = s.reg j := rfl
@[simp] theorem State.setCC_memRead (s : State) (c : CondCode) (k : Int) : (s.setCC c).memRead k = s.memRead k := rfl

/-! ### setIp -/

@[simp] theorem State.setIp_x (s : State) (t : Addr) : (s.setIp t).x = s.x := rfl
@[simp] theorem State.setIp_ip (s : State) (t : Addr) : (s.setIp t).ip = t := rfl
@[simp] theorem State.setIp_cc (s : State) (t : Addr) : (s.setIp t).cc = s.cc := rfl
@[simp] theorem State.setIp_halted (s : State) (t : Addr) : (s.setIp t).halted = s.halted := rfl
@[simp] theorem State.setIp_fault (s : State) (t : Addr) : (s.setIp t).fault = s.fault := rfl
@[simp] theorem State.setIp_mem (s : State) (t : Addr) : (s.setIp t).mem = s.mem := rfl
@[simp] theorem State.setIp_out (s : State) (t : Addr) : (s.setIp t).out = s.out := rfl
@[simp] theorem State.setIp_reg (s : State) (t : Addr) (j : Reg) : (s.setIp t).reg j = s.reg j := rfl
@[simp] theorem State.setIp_memRead (s : State) (t : Addr) (k : Int) : (s.setIp t).memRead k = s.memRead k := rfl

/-! ### emit -/

@[simp] theorem State.emit_x (s : State) (t : OutToken) : (s.emit t).x = s.x := rfl
@[simp] theorem State.emit_ip (s : State) (t : OutToken) : (s.emit t).ip = s.ip := rfl
@[simp] theorem State.emit_cc (s : State) (t : OutToken) : (s.emit t).cc = s.cc := rfl
@[simp] theorem State.emit_halted (s : State) (t : OutToken) : (s.emit t).halted = s.halted := rfl
@[simp] theorem State.emit_fault (s : State) (t : OutToken) : (s.emit t).fault = s.fault := rfl
@[simp] theorem State.emit_mem (s : State) (t : OutToken) : (s.emit t).mem = s.mem := rfl
@[simp] theorem State.emit_out (s : State) (t : OutToken) : (s.emit t).out = s.out ++ [t] := rfl
@[simp] theorem State.emit_reg (s : State) (t : OutToken) (j : Reg) : (s.emit t).reg j = s.reg j := rfl
@[simp] theorem State.emit_memRead (s : State) (t : OutToken) (k : Int) : (s.emit t).memRead k = s.memRead k := rfl

/-! ### halt -/

@[simp] theorem State.halt_x (s : State) : (s.halt).x = s.x := rfl
@[simp] theorem State.halt_ip (s : State) : (s.halt).ip = s.ip := rfl
@[simp] theorem State.halt_cc (s : State) : (s.halt).cc = s.cc := rfl
@[simp] theorem State.halt_halted (s : State) : (s.halt).halted = true := rfl
@[simp] theorem State.halt_fault (s : State) : (s.halt).fault = s.fault := rfl
@[simp] theorem State.halt_mem (s : State) : (s.halt).mem = s.mem := rfl
@[simp] theorem State.halt_out (s : State) : (s.halt).out = s.out := rfl
@[simp] theorem State.halt_reg (s : State) (j : Reg) : (s.halt).reg j = s.reg j := rfl
@[simp] theorem State.halt_memRead (s : State) (k : Int) : (s.halt).memRead k = s.memRead k := rfl

/-! ### raise -/

@[simp] theorem State.raise_x (s : State) (f : Fault) : (s.raise f).x = s.x := rfl
@[simp] theorem State.raise_ip (s : State) (f : Fault) : (s.raise f).ip = s.ip := rfl
@[simp] theorem State.raise_cc (s : State) (f : Fault) : (s.raise f).cc = s.cc := rfl
@[simp] theorem State.raise_halted (s : State) (f : Fault) : (s.raise f).halted = s.halted := rfl
@[simp] theorem State.raise_fault (s : State) (f : Fault) : (s.raise f).fault = some f := rfl
@[simp] theorem State.raise_mem (s : State) (f : Fault) : (s.raise f).mem = s.mem := rfl
@[simp] theorem State.raise_out (s : State) (f : Fault) : (s.raise f).out = s.out := rfl
@[simp] theorem State.raise_reg (s : State) (f : Fault) (j : Reg) : (s.raise f).reg j = s.reg j := rfl
@[simp] theorem State.raise_memRead (s : State) (f : Fault) (k : Int) : (s.raise f).memRead k = s.memRead k := rfl

/-! ### memWrite -/

@[simp] theorem State.memWrite_x (s : State) (a : Int) (v : Int) : (s.memWrite a v).x = s.x := rfl
@[simp] theorem State.memWrite_ip (s : State) (a : Int) (v : Int) : (s.memWrite a v).ip = s.ip := rfl
@[simp] theorem State.memWrite_cc (s : State) (a : Int) (v : Int) : (s.memWrite a v).cc = s.cc := rfl
@[simp] theorem State.memWrite_halted (s : State) (a : Int) (v : Int) : (s.memWrite a v).halted = s.halted := rfl
@[simp] theorem State.memWrite_fault (s : State) (a : Int) (v : Int) : (s.memWrite a v).fault = s.fault := rfl
@[simp] theorem State.memWrite_mem (s : State) (a : Int) (v : Int) : (s.memWrite a v).mem = s.mem.write (addressOf a) v := rfl
@[simp] theorem State.memWrite_out (s : State) (a : Int) (v : Int) : (s.memWrite a v).out = s.out := rfl
@[simp] theorem State.memWrite_reg (s : State) (a : Int) (v : Int) (j : Reg) : (s.memWrite a v).reg j = s.reg j := rfl

/-! ### advance -/

@[simp] theorem State.advance_x (s : State) : (s.advance).x = s.x := rfl
@[simp] theorem State.advance_ip (s : State) : (s.advance).ip = addressOf ((s.ip.val : Int) + 1) := rfl
@[simp] theorem State.advance_cc (s : State) : (s.advance).cc = s.cc := rfl
@[simp] theorem State.advance_halted (s : State) : (s.advance).halted = s.halted := rfl
@[simp] theorem State.advance_fault (s : State) : (s.advance).fault = s.fault := rfl
@[simp] theorem State.advance_mem (s : State) : (s.advance).mem = s.mem := rfl
@[simp] theorem State.advance_out (s : State) : (s.advance).out = s.out := rfl
@[simp] theorem State.advance_reg (s : State) (j : Reg) : (s.advance).reg j = s.reg j := rfl
@[simp] theorem State.advance_memRead (s : State) (k : Int) : (s.advance).memRead k = s.memRead k := rfl

/-! ### Reading a register after a write -/

@[simp] theorem State.setReg_reg_same (s : State) (i : Reg) (v : Int) : (s.setReg i v).reg i = v := by
  simp [State.reg, State.setReg]

theorem State.setReg_reg_other (s : State) {i j : Reg} (v : Int) (h : j ≠ i) : (s.setReg i v).reg j = s.reg j := by
  have : (i : Nat) ≠ j := fun e => h (Fin.ext e.symm)
  simp [State.reg, State.setReg, this]

/-- The register file after a write, as one function. -/
theorem State.setReg_reg (s : State) (i : Reg) (v : Int) : (s.setReg i v).reg = Function.update s.reg i v := by
  funext j
  by_cases h : j = i
  · subst h
    simp
  · rw [State.setReg_reg_other s v h, Function.update_of_ne h]

/-! ### Reset -/

@[simp] theorem State.reset_reg (i : Reg) : State.reset.reg i = 0 := by
  simp [State.reg, State.reset]

@[simp] theorem State.reset_mem_read (a : Addr) : State.reset.mem.read a = 0 := rfl

end Sys2Proof.Machine
end

