-- ==== Sys2Proof/Laws/Memory.lean ====
section
/-!
SUPPORT. What reading gives after each memory operation, and that every memory operation keeps the canonical form.
-/

namespace Sys2Proof.Machine

/-! ### Reading -/

@[simp] theorem Memory.read_nil (a : Addr) : Memory.read [] a = 0 := rfl

theorem Memory.read_cons (b : Addr) (v : Int) (m : Memory) (a : Addr) :
    Memory.read ((b, v) :: m) a = if a = b then v else Memory.read m a := rfl

theorem Memory.read_clear (m : Memory) (a b : Addr) :
    (m.clear a).read b = if b = a then 0 else m.read b := by
  induction m with
  | nil => simp [Memory.clear]
  | cons c rest ih =>
    obtain ⟨d, w⟩ := c
    by_cases h : d = a
    · subst h
      have : Memory.clear ((d, w) :: rest) d = Memory.clear rest d := by simp [Memory.clear]
      rw [this, ih]
      by_cases hb : b = d <;> simp [Memory.read_cons, hb]
    · have : Memory.clear ((d, w) :: rest) a = (d, w) :: Memory.clear rest a := by simp [Memory.clear, h]
      rw [this, Memory.read_cons, Memory.read_cons, ih]
      by_cases hb : b = d
      · subst hb
        simp [h]
      · simp [hb]

theorem Memory.read_put (m : Memory) (a : Addr) (v : Int) (b : Addr)
    (hm : ∀ c ∈ m, c.1 ≠ a) : (m.put a v).read b = if b = a then v else m.read b := by
  induction m with
  | nil => simp [Memory.put, Memory.read_cons]
  | cons c rest ih =>
    obtain ⟨d, w⟩ := c
    have hd : d ≠ a := hm (d, w) (by simp)
    have hrest : ∀ c ∈ rest, c.1 ≠ a := fun c hc => hm c (by simp [hc])
    by_cases hlt : a.val < d.val
    · simp [Memory.put, hlt, Memory.read_cons]
    · rw [Memory.put, if_neg hlt, Memory.read_cons, ih hrest, Memory.read_cons]
      by_cases hb : b = d
      · subst hb
        simp [hd]
      · simp [hb]

/-- Read after write, for every memory: the cell written holds the value, every other cell reads as before. -/
theorem Memory.read_write (m : Memory) (a : Addr) (v : Int) (b : Addr) :
    (m.write a v).read b = if b = a then v else m.read b := by
  unfold Memory.write Memory.unlisted
  split
  · next h => rw [Memory.read_clear, h]
  · rw [Memory.read_put _ _ _ _ (by simp [Memory.clear]), Memory.read_clear]
    by_cases hb : b = a <;> simp [hb]

@[simp] theorem Memory.read_write_same (m : Memory) (a : Addr) (v : Int) : (m.write a v).read a = v := by
  simp [Memory.read_write]

theorem Memory.read_write_other (m : Memory) {a b : Addr} (v : Int) (h : b ≠ a) :
    (m.write a v).read b = m.read b := by
  simp [Memory.read_write, h]

/-- The cells after a write, as one function. -/
theorem Memory.read_write_fun (m : Memory) (a : Addr) (v : Int) :
    (m.write a v).read = Function.update m.read a v := by
  funext b
  rw [Memory.read_write, Function.update_apply]

/-! ### The canonical form -/

theorem Memory.wfFrom_mono {lo hi : Nat} {m : Memory} (h : lo ≤ hi) (w : Memory.wfFrom hi m = true) :
    Memory.wfFrom lo m = true := by
  cases m with
  | nil => rfl
  | cons c rest =>
    obtain ⟨a, v⟩ := c
    simp only [Memory.wfFrom, Bool.and_eq_true, decide_eq_true_eq] at w ⊢
    exact ⟨⟨by omega, w.1.2⟩, w.2⟩

theorem Memory.clear_wfFrom {lo : Nat} {m : Memory} (a : Addr) (w : Memory.wfFrom lo m = true) :
    Memory.wfFrom lo (m.clear a) = true := by
  induction m generalizing lo with
  | nil => rfl
  | cons c rest ih =>
    obtain ⟨b, v⟩ := c
    simp only [Memory.wfFrom, Bool.and_eq_true, decide_eq_true_eq] at w
    by_cases h : b = a
    · have : Memory.clear ((b, v) :: rest) a = Memory.clear rest a := by simp [Memory.clear, h]
      rw [this]
      exact Memory.wfFrom_mono (by omega) (ih w.2)
    · have : Memory.clear ((b, v) :: rest) a = (b, v) :: Memory.clear rest a := by simp [Memory.clear, h]
      rw [this]
      simp only [Memory.wfFrom, Bool.and_eq_true, decide_eq_true_eq]
      exact ⟨w.1, ih w.2⟩

theorem Memory.put_wfFrom {lo : Nat} {m : Memory} {a : Addr} {v : Int} (ha : lo ≤ a.val) (hv : v ≠ 0)
    (hm : ∀ c ∈ m, c.1 ≠ a) (w : Memory.wfFrom lo m = true) : Memory.wfFrom lo (m.put a v) = true := by
  induction m generalizing lo with
  | nil => simp [Memory.put, Memory.wfFrom, Memory.unlisted, ha, hv]
  | cons c rest ih =>
    obtain ⟨b, u⟩ := c
    have hb : b ≠ a := hm (b, u) (by simp)
    simp only [Memory.wfFrom, Bool.and_eq_true, decide_eq_true_eq] at w
    by_cases hlt : a.val < b.val
    · simp only [Memory.put, if_pos hlt, Memory.wfFrom, Bool.and_eq_true, decide_eq_true_eq]
      exact ⟨⟨ha, hv⟩, ⟨⟨by omega, w.1.2⟩, w.2⟩⟩
    · have hne : b.val ≠ a.val := fun e => hb (Fin.ext e)
      simp only [Memory.put, if_neg hlt, Memory.wfFrom, Bool.and_eq_true, decide_eq_true_eq]
      exact ⟨w.1, ih (by omega) (fun c hc => hm c (by simp [hc])) w.2⟩

/-- A write keeps the canonical form. -/
theorem Memory.write_wf {m : Memory} (a : Addr) (v : Int) (w : m.wf = true) : (m.write a v).wf = true := by
  unfold Memory.write Memory.wf
  split
  · exact Memory.clear_wfFrom a w
  · next h => exact Memory.put_wfFrom (Nat.zero_le _) h (by simp [Memory.clear]) (Memory.clear_wfFrom a w)

/-- Reset's memory has the canonical form. -/
theorem Memory.reset_wf : State.reset.mem.wf = true := rfl

/-- A cell that fits, written into cells that fit, leaves cells that fit. -/
theorem Memory.write_fits {m : Memory} (a : Addr) {v : Int} (hv : Fits v) (hm : ∀ b, Fits (m.read b)) (b : Addr) :
    Fits ((m.write a v).read b) := by
  rw [Memory.read_write]
  split
  · exact hv
  · exact hm b

/-! ### MemRead and MemWrite -/

/-- `MemRead` after `MemWrite` (`20_memory.md` R31, R32): the same cell is the one with the same remainder. -/
theorem State.memRead_memWrite (s : State) (n : Int) (v : Int) (k : Int) :
    (s.memWrite n v).memRead k = if addressOf k = addressOf n then v else s.memRead k := by
  simp [State.memRead, Memory.read_write]

/-- One access changes memory as `Access.apply` says. -/
theorem Access.apply_read_only (m : Memory) (a : Addr) : Access.apply m (.read a) = m := rfl

end Sys2Proof.Machine
end

