-- ==== Sys2Proof/Laws/Ops.lean ====
section
/-!
SUPPORT. One lemma for each shared operation, saying once everything it can do; the provers cite these instead of
unfolding the operation.
-/

namespace Sys2Proof.Machine

/-! ### Range check -/

theorem fit_of_fits {v : Int} (h : Fits v) : fit v = some v := if_pos h

theorem fit_of_not_fits {v : Int} (h : ¬Fits v) : fit v = none := if_neg h

/-- `fit` gives a value that fits, unchanged, or nothing. -/
theorem fit_cases (v : Int) : (Fits v ∧ fit v = some v) ∨ (¬Fits v ∧ fit v = none) := by
  by_cases h : Fits v
  · exact .inl ⟨h, fit_of_fits h⟩
  · exact .inr ⟨h, fit_of_not_fits h⟩

/-! ### Addresses -/

theorem addressOf_val (n : Int) : ((addressOf n).val : Int) = n % 10000 := by
  show (((n % 10000).toNat : Nat) : Int) = n % 10000
  omega

theorem addressOf_eq_iff (m n : Int) : addressOf m = addressOf n ↔ m % 10000 = n % 10000 := by
  rw [Fin.ext_iff, ← addressOf_val, ← addressOf_val]
  omega

@[simp] theorem addressOf_of_val (a : Addr) : addressOf (a.val : Int) = a := by
  apply Fin.ext
  have h := addressOf_val (a.val : Int)
  have := a.isLt
  omega

theorem addressOf_fits (n : Int) : Fits (((addressOf n).val : Nat) : Int) := by
  have := (addressOf n).isLt
  simp only [Fits, Config.valMin, Config.valMax]
  omega

theorem expandAddress_fits (u : Addr) : Fits (expandAddress u) := by
  have := u.isLt
  simp only [Fits, Config.valMin, Config.valMax, expandAddress]
  split <;> omega

/-! ### Operand resolution -/

/-- `stepIndex` either writes the changed register, which fits, or faults with nothing written. -/
theorem stepIndex_cases (k : Reg) (d : Int) (s : State) :
    (Fits (s.reg k + d) ∧ stepIndex k d s = .ok (s.setReg k (s.reg k + d))) ∨
      (¬Fits (s.reg k + d) ∧ stepIndex k d s = .error (s.raise .arithmeticOverflow)) := by
  unfold stepIndex
  rcases fit_cases (s.reg k + d) with ⟨h, e⟩ | ⟨h, e⟩
  · exact .inl ⟨h, by rw [e]⟩
  · exact .inr ⟨h, by rw [e]⟩

/-- `addIndex` either gives the sum, which fits, or faults; it writes nothing else. -/
theorem addIndex_cases (opnd : Int) (k : Reg) (s : State) :
    (Fits (opnd + s.reg k) ∧ addIndex opnd k s = .ok (opnd + s.reg k, s)) ∨
      (¬Fits (opnd + s.reg k) ∧ addIndex opnd k s = .error (s.raise .arithmeticOverflow)) := by
  unfold addIndex
  rcases fit_cases (opnd + s.reg k) with ⟨h, e⟩ | ⟨h, e⟩
  · exact .inl ⟨h, by rw [e]⟩
  · exact .inr ⟨h, by rw [e]⟩

/-- A step of one register that fits, or no step: all a completed indexation stage does to the state. -/
def IndexEffect (s t : State) : Prop := t = s ∨ ∃ k v, Fits v ∧ t = s.setReg k v

theorem stepThenAdd_ok {opnd : Int} {k : Reg} {d : Int} {s t : State} {a : Int}
    (h : stepThenAdd opnd k d s = .ok (a, t)) : IndexEffect s t ∧ Fits a := by
  unfold stepThenAdd at h
  rcases stepIndex_cases k d s with ⟨hf, e⟩ | ⟨_, e⟩ <;> rw [e] at h
  · simp only at h
    rcases addIndex_cases opnd k (s.setReg k (s.reg k + d)) with ⟨ha, e'⟩ | ⟨_, e'⟩ <;> rw [e'] at h
    · cases h
      exact ⟨.inr ⟨k, _, hf, rfl⟩, ha⟩
    · cases h
  · cases h

theorem addThenStep_ok {opnd : Int} {k : Reg} {d : Int} {s t : State} {a : Int}
    (h : addThenStep opnd k d s = .ok (a, t)) : IndexEffect s t ∧ Fits a := by
  unfold addThenStep at h
  rcases addIndex_cases opnd k s with ⟨ha, e⟩ | ⟨_, e⟩ <;> rw [e] at h
  · simp only at h
    rcases stepIndex_cases k d s with ⟨hf, e'⟩ | ⟨_, e'⟩ <;> rw [e'] at h
    · cases h
      exact ⟨.inr ⟨k, _, hf, rfl⟩, ha⟩
    · cases h
  · cases h

/-- An indexation stage that completes changes at most one register, to a value that fits. -/
theorem indexStage_ok {opnd : Int} {x : Indexation} {s t : State} {a : Int}
    (h : indexStage opnd x s = .ok (a, t)) : IndexEffect s t := by
  cases x with
  | none => cases h; exact .inl rfl
  | plain k =>
    rcases addIndex_cases opnd k s with ⟨_, e⟩ | ⟨_, e⟩ <;> simp only [indexStage, e] at h <;> cases h
    exact .inl rfl
  | preInc k => exact (stepThenAdd_ok h).1
  | postInc k => exact (addThenStep_ok h).1
  | preDec k => exact (stepThenAdd_ok h).1
  | postDec k => exact (addThenStep_ok h).1

/-- The adjusted operand is in `Val` when the operand field is. -/
theorem indexStage_fits {opnd : Int} {x : Indexation} {s t : State} {a : Int} (hd : Fits opnd)
    (h : indexStage opnd x s = .ok (a, t)) : Fits a := by
  cases x with
  | none => cases h; exact hd
  | plain k =>
    rcases addIndex_cases opnd k s with ⟨hf, e⟩ | ⟨_, e⟩ <;> simp only [indexStage, e] at h <;> cases h
    exact hf
  | preInc k => exact (stepThenAdd_ok h).2
  | postInc k => exact (addThenStep_ok h).2
  | preDec k => exact (stepThenAdd_ok h).2
  | postDec k => exact (addThenStep_ok h).2

/-- A step of the index register, or nothing, and then the overflow: all a faulting indexation stage does. -/
def IndexFault (s t : State) : Prop := ∃ u, IndexEffect s u ∧ t = u.raise .arithmeticOverflow

theorem stepThenAdd_error {opnd : Int} {k : Reg} {d : Int} {s t : State}
    (h : stepThenAdd opnd k d s = .error t) : IndexFault s t := by
  unfold stepThenAdd at h
  rcases stepIndex_cases k d s with ⟨hf, e⟩ | ⟨_, e⟩ <;> rw [e] at h
  · simp only at h
    rcases addIndex_cases opnd k (s.setReg k (s.reg k + d)) with ⟨_, e'⟩ | ⟨_, e'⟩ <;> rw [e'] at h
    · cases h
    · cases h
      exact ⟨_, .inr ⟨k, _, hf, rfl⟩, rfl⟩
  · cases h
    exact ⟨s, .inl rfl, rfl⟩

theorem addThenStep_error {opnd : Int} {k : Reg} {d : Int} {s t : State}
    (h : addThenStep opnd k d s = .error t) : IndexFault s t := by
  unfold addThenStep at h
  rcases addIndex_cases opnd k s with ⟨_, e⟩ | ⟨_, e⟩ <;> rw [e] at h
  · simp only at h
    rcases stepIndex_cases k d s with ⟨_, e'⟩ | ⟨_, e'⟩ <;> rw [e'] at h
    · cases h
    · cases h
      exact ⟨s, .inl rfl, rfl⟩
  · cases h
    exact ⟨s, .inl rfl, rfl⟩

/-- A faulting indexation stage has raised the overflow, with at most one register changed before. -/
theorem indexStage_error {opnd : Int} {x : Indexation} {s t : State}
    (h : indexStage opnd x s = .error t) : IndexFault s t := by
  cases x with
  | none => cases h
  | plain k =>
    rcases addIndex_cases opnd k s with ⟨_, e⟩ | ⟨_, e⟩ <;> simp only [indexStage, e] at h <;> cases h
    exact ⟨s, .inl rfl, rfl⟩
  | preInc k => exact stepThenAdd_error h
  | postInc k => exact addThenStep_error h
  | preDec k => exact stepThenAdd_error h
  | postDec k => exact addThenStep_error h

/-- The resolved operand is in `Val` when the operand field and the cells are. -/
theorem valueStage_fits (m : Interp) {a : Int} {s : State} (ha : Fits a) (hc : ∀ b, Fits (s.mem.read b)) :
    Fits (valueStage m a s) := by
  cases m with
  | value => exact ha
  | address => exact addressOf_fits a
  | direct => exact hc _
  | indirect => exact hc _

/-- Resolution completes with an index effect and the value stage's value, or faults. -/
theorem resolve_cases (o : Operand) (s : State) :
    (∃ a t, IndexEffect s t ∧ indexStage o.disp o.index s = .ok (a, t) ∧
        resolve o s = .ok (valueStage o.interp a t, t)) ∨
      (∃ t, IndexFault s t ∧ indexStage o.disp o.index s = .error t ∧ resolve o s = .error t) := by
  cases h : indexStage o.disp o.index s with
  | error t => exact .inr ⟨t, indexStage_error h, rfl, by simp [resolve, h]⟩
  | ok p =>
    obtain ⟨a, t⟩ := p
    exact .inl ⟨a, t, indexStage_ok h, rfl, by simp [resolve, h]⟩

/-- An operand-taking instruction either runs its operation on the resolved operand, or ends in the index fault. -/
theorem withOperand_cases (o : Operand) (s : State) (f : Int → State → Result) :
    (∃ v t, IndexEffect s t ∧ resolve o s = .ok (v, t) ∧ withOperand o s f = f v t) ∨
      (∃ t, IndexFault s t ∧ resolve o s = .error t ∧ withOperand o s f = .next t) := by
  rcases resolve_cases o s with ⟨a, t, he, _, hr⟩ | ⟨t, he, _, hr⟩
  · exact .inl ⟨_, t, he, hr, by simp [withOperand, hr]⟩
  · exact .inr ⟨t, he, hr, by simp [withOperand, hr]⟩

/-! ### Arithmetic -/

theorem fitted_cases (v : Int) :
    (Fits v ∧ fitted v = .ok v) ∨ (¬Fits v ∧ fitted v = .error .arithmeticOverflow) := by
  unfold fitted
  rcases fit_cases v with ⟨h, e⟩ | ⟨h, e⟩
  · exact .inl ⟨h, by rw [e]⟩
  · exact .inr ⟨h, by rw [e]⟩

/-- An arithmetic instruction writes the accumulator and the condition code, or faults with neither written. -/
theorem accumulate_cases (a : Reg) (v : Int) (r : Except Fault Int) (t : State) :
    (∃ y, r = .ok y ∧ accumulate a v r t = .next ((t.setReg a y).setCC (sign v))) ∨
      (∃ f, r = .error f ∧ accumulate a v r t = .next (t.raise f)) := by
  cases r with
  | ok y => exact .inl ⟨y, rfl, rfl⟩
  | error f => exact .inr ⟨f, rfl, rfl⟩

/-! ### What an index effect leaves unchanged -/

theorem IndexEffect.frame {s t : State} (h : IndexEffect s t) :
    t.ip = s.ip ∧ t.cc = s.cc ∧ t.halted = s.halted ∧ t.fault = s.fault ∧ t.mem = s.mem ∧ t.out = s.out := by
  rcases h with rfl | ⟨k, v, _, rfl⟩ <;> simp

theorem IndexFault.frame {s t : State} (h : IndexFault s t) :
    t.ip = s.ip ∧ t.cc = s.cc ∧ t.halted = s.halted ∧ t.fault = some .arithmeticOverflow ∧ t.mem = s.mem ∧
      t.out = s.out := by
  obtain ⟨u, hu, rfl⟩ := h
  obtain ⟨h1, h2, h3, _, h5, h6⟩ := hu.frame
  exact ⟨h1, h2, h3, rfl, h5, h6⟩

/-- Registers in `Val` stay in `Val` over an index effect. -/
theorem IndexEffect.regs_fit {s t : State} (h : IndexEffect s t) (hs : ∀ i, Fits (s.reg i)) (i : Reg) :
    Fits (t.reg i) := by
  rcases h with rfl | ⟨k, v, hv, rfl⟩
  · exact hs i
  · by_cases hi : i = k
    · subst hi
      simpa using hv
    · rw [State.setReg_reg_other s v hi]
      exact hs i

end Sys2Proof.Machine
end

