-- ==== Sys2Proof/Laws/PerInstr.lean ====
section
/-!
SUPPORT. The family of statements made once for each instruction: the word of a well-formed instruction is a
ten-digit word whose opcode digits are the function code (`30_encoding.md` R52, R57, R61, R62).
-/

namespace Sys2Proof.Laws

/-- What the family says of one instruction. -/
def WordShape.Statement (i : Instr) : Prop :=
  i.wellFormed = true → 0 ≤ encode i ∧ encode i < 10 ^ 10 ∧ encode i / 10 ^ 8 = (i.opcode.code : Int)

/-- The low eight digits of a packed word stay below 10^8, whatever the fields. -/
theorem pack_shape (f : Fields) (h : f.op ≤ 99) :
    0 ≤ pack f ∧ pack f < 10 ^ 10 ∧ pack f / 10 ^ 8 = (f.op : Int) := by
  have h1 := f.m1.isLt
  have h2 := f.m2.isLt
  have h3 := f.acc.isLt
  have h4 := f.idx.isLt
  have h5 := (addressOf f.opnd).isLt
  unfold pack
  omega

theorem WordShape.hia (a : Reg) (o : Operand) : WordShape.Statement (.hia a o) :=
  fun _ => pack_shape (Instr.hia a o).fields (by decide : 11 ≤ 99)

theorem WordShape.big (a : Reg) (o : Operand) : WordShape.Statement (.big a o) :=
  fun _ => pack_shape (Instr.big a o).fields (by decide : 12 ≤ 99)

theorem WordShape.opt (a : Reg) (o : Operand) : WordShape.Statement (.opt a o) :=
  fun _ => pack_shape (Instr.opt a o).fields (by decide : 21 ≤ 99)

theorem WordShape.aft (a : Reg) (o : Operand) : WordShape.Statement (.aft a o) :=
  fun _ => pack_shape (Instr.aft a o).fields (by decide : 22 ≤ 99)

theorem WordShape.ver (a : Reg) (o : Operand) : WordShape.Statement (.ver a o) :=
  fun _ => pack_shape (Instr.ver a o).fields (by decide : 23 ≤ 99)

theorem WordShape.del (a : Reg) (o : Operand) : WordShape.Statement (.del a o) :=
  fun _ => pack_shape (Instr.del a o).fields (by decide : 24 ≤ 99)

theorem WordShape.mod (a : Reg) (o : Operand) : WordShape.Statement (.mod a o) :=
  fun _ => pack_shape (Instr.mod a o).fields (by decide : 25 ≤ 99)

theorem WordShape.vgl (a : Reg) (o : Operand) : WordShape.Statement (.vgl a o) :=
  fun _ => pack_shape (Instr.vgl a o).fields (by decide : 31 ≤ 99)

theorem WordShape.spr (o : Operand) : WordShape.Statement (.spr o) :=
  fun _ => pack_shape (Instr.spr o).fields (by decide : 32 ≤ 99)

theorem WordShape.vsp (p : Predicate) (o : Operand) : WordShape.Statement (.vsp p o) :=
  fun _ => pack_shape (Instr.vsp p o).fields (by decide : 33 ≤ 99)

theorem WordShape.sbr (o : Operand) : WordShape.Statement (.sbr o) :=
  fun _ => pack_shape (Instr.sbr o).fields (by decide : 41 ≤ 99)

theorem WordShape.ktg : WordShape.Statement .ktg :=
  fun _ => pack_shape Instr.ktg.fields (by decide : 42 ≤ 99)

theorem WordShape.dru : WordShape.Statement .dru :=
  fun _ => pack_shape Instr.dru.fields (by decide : 72 ≤ 99)

theorem WordShape.nwl : WordShape.Statement .nwl :=
  fun _ => pack_shape Instr.nwl.fields (by decide : 73 ≤ 99)

theorem WordShape.drs : WordShape.Statement .drs :=
  fun _ => pack_shape Instr.drs.fields (by decide : 74 ≤ 99)

theorem WordShape.nop : WordShape.Statement .nop :=
  fun _ => pack_shape Instr.nop.fields (by decide : 98 ≤ 99)

theorem WordShape.stp : WordShape.Statement .stp :=
  fun _ => pack_shape Instr.stp.fields (by decide : 99 ≤ 99)

theorem WordShape.bst (n : Reg) : WordShape.Statement (.bst n) :=
  fun _ => pack_shape (Instr.bst n).fields (by decide : 12 ≤ 99)

theorem WordShape.hst (n : Reg) : WordShape.Statement (.hst n) :=
  fun _ => pack_shape (Instr.hst n).fields (by decide : 11 ≤ 99)

end Sys2Proof.Laws
end

