-- ==== Sys2Proof/Laws/View.lean ====
section
/-!
SUPPORT. How a state looks (`State.view`) after each register, flag and output update.
-/

namespace Sys2Proof.Machine

@[simp] theorem State.view_regs (s : State) : s.view.regs = s.reg := rfl
@[simp] theorem State.view_cells (s : State) : s.view.cells = s.mem.read := rfl
@[simp] theorem State.view_ip (s : State) : s.view.ip = s.ip := rfl
@[simp] theorem State.view_cc (s : State) : s.view.cc = s.cc := rfl
@[simp] theorem State.view_halted (s : State) : s.view.halted = s.halted := rfl
@[simp] theorem State.view_fault (s : State) : s.view.fault = s.fault := rfl
@[simp] theorem State.view_out (s : State) : s.view.out = s.out := rfl

theorem State.view_setReg (s : State) (i : Reg) (v : Int) :
    (s.setReg i v).view = { s.view with regs := Function.update s.reg i v } := by
  simp only [State.view, State.setReg_reg, State.setReg_ip, State.setReg_cc, State.setReg_halted,
    State.setReg_fault, State.setReg_mem, State.setReg_out]

theorem State.view_setCC (s : State) (c : CondCode) : (s.setCC c).view = { s.view with cc := c } := rfl

theorem State.view_setIp (s : State) (t : Addr) : (s.setIp t).view = { s.view with ip := t } := rfl

theorem State.view_emit (s : State) (t : OutToken) : (s.emit t).view = { s.view with out := s.out ++ [t] } := rfl

theorem State.view_halt (s : State) : s.halt.view = { s.view with halted := true } := rfl

/-- Two states that look the same and hold the same memory list are the same. -/
theorem State.eq_of_view {s t : State} (h : s.view = t.view) (hm : s.mem = t.mem) : s = t := by
  obtain ⟨x, a, b, c, d, e, f⟩ := s
  obtain ⟨x', a', b', c', d', e', f'⟩ := t
  simp only [State.view, View.mk.injEq] at h
  obtain ⟨hr, -, rfl, rfl, rfl, rfl, rfl⟩ := h
  subst hm
  congr
  ext i hi
  exact congrFun hr ⟨i, hi⟩

end Sys2Proof.Machine
end

