-- ==== Sys2Proof/Laws/Resolve.lean ====
section
/-!
SUPPORT. Operand resolution in the terms of Safety.lean: when it completes, with what value and what state, and the
state it faults in.
-/

namespace Sys2Proof.Machine

theorem stepThenAdd_resolves {d : Int} {k : Reg} {e : Int} {s : State} (h1 : Fits (s.reg k + e))
    (h2 : Fits (d + (s.reg k + e))) :
    stepThenAdd d k e s = .ok (d + (s.reg k + e), s.setReg k (s.reg k + e)) := by
  rw [stepThenAdd, stepIndex, fit_of_fits h1]
  simp only [addIndex, State.setReg_reg_same, fit_of_fits h2]

theorem addThenStep_resolves {d : Int} {k : Reg} {e : Int} {s : State} (h1 : Fits (d + s.reg k))
    (h2 : Fits (s.reg k + e)) :
    addThenStep d k e s = .ok (d + s.reg k, s.setReg k (s.reg k + e)) := by
  rw [addThenStep, addIndex, fit_of_fits h1]
  simp only [stepIndex, fit_of_fits h2]

/-- The indexation stage of a resolvable operand: its value and its state. -/
theorem indexStage_resolves {o : Operand} {s : State} (h : Resolvable o s) :
    ∃ t, indexStage o.disp o.index s = .ok (adjustedOperand o s, t) ∧
      t.view = { s.view with regs := regsAfterIndex o s } := by
  obtain ⟨m, x, d⟩ := o
  cases x with
  | none => exact ⟨s, rfl, rfl⟩
  | plain k => exact ⟨s, by simp only [indexStage, addIndex, fit_of_fits h]; rfl, rfl⟩
  | preInc k => exact ⟨_, stepThenAdd_resolves h.1 h.2, State.view_setReg _ _ _⟩
  | postInc k => exact ⟨_, addThenStep_resolves h.1 h.2, State.view_setReg _ _ _⟩
  | preDec k => exact ⟨_, stepThenAdd_resolves h.1 h.2, State.view_setReg _ _ _⟩
  | postDec k => exact ⟨_, addThenStep_resolves h.1 h.2, State.view_setReg _ _ _⟩

/-- A resolvable operand resolves to its value, with only the index register changed. -/
theorem resolve_of_resolvable {o : Operand} {s : State} (h : Resolvable o s) :
    ∃ t, resolve o s = .ok (resolvedOperand o s, t) ∧ t.view = { s.view with regs := regsAfterIndex o s } := by
  obtain ⟨t, ht, hv⟩ := indexStage_resolves h
  refine ⟨t, ?_, hv⟩
  have hm : t.mem.read = s.mem.read := congrArg View.cells hv
  simp only [resolve, ht]
  obtain ⟨m, x, d⟩ := o
  cases m with
  | value => rfl
  | address => simp only [valueStage, resolvedOperand, addressOf_val]
  | direct => simp only [valueStage, resolvedOperand, State.memRead, hm]
  | indirect => simp only [valueStage, resolvedOperand, State.memRead, hm]

theorem stepThenAdd_overflows {d : Int} {k : Reg} {e : Int} {s : State}
    (h : ¬(Fits (s.reg k + e) ∧ Fits (d + (s.reg k + e)))) :
    ∃ t, stepThenAdd d k e s = .error t ∧
      t.view = { s.view with
        regs := if Fits (s.reg k + e) then Function.update s.reg k (s.reg k + e) else s.reg
        fault := some .arithmeticOverflow } := by
  by_cases h1 : Fits (s.reg k + e)
  · have h2 : ¬Fits (d + (s.reg k + e)) := fun q => h ⟨h1, q⟩
    refine ⟨(s.setReg k (s.reg k + e)).raise .arithmeticOverflow, ?_, ?_⟩
    · rw [stepThenAdd, stepIndex, fit_of_fits h1]
      simp only [addIndex, State.setReg_reg_same, fit_of_not_fits h2]
    · rw [if_pos h1, ← State.setReg_reg]
      rfl
  · refine ⟨s.raise .arithmeticOverflow, ?_, ?_⟩
    · rw [stepThenAdd, stepIndex, fit_of_not_fits h1]
    · rw [if_neg h1]
      rfl

theorem addThenStep_overflows {d : Int} {k : Reg} {e : Int} {s : State}
    (h : ¬(Fits (d + s.reg k) ∧ Fits (s.reg k + e))) :
    addThenStep d k e s = .error (s.raise .arithmeticOverflow) := by
  by_cases h1 : Fits (d + s.reg k)
  · have h2 : ¬Fits (s.reg k + e) := fun q => h ⟨h1, q⟩
    rw [addThenStep, addIndex, fit_of_fits h1]
    simp only [stepIndex, fit_of_not_fits h2]
  · rw [addThenStep, addIndex, fit_of_not_fits h1]

/-- An operand that is not resolvable faults with the overflow, at the registers `regsAtIndexFault` gives. -/
theorem resolve_of_not_resolvable {o : Operand} {s : State} (h : ¬Resolvable o s) :
    ∃ t, resolve o s = .error t ∧
      t.view = { s.view with regs := regsAtIndexFault o s, fault := some .arithmeticOverflow } := by
  suffices hs : ∃ t, indexStage o.disp o.index s = .error t ∧
      t.view = { s.view with regs := regsAtIndexFault o s, fault := some .arithmeticOverflow } by
    obtain ⟨t, ht, hv⟩ := hs
    exact ⟨t, by simp only [resolve, ht], hv⟩
  obtain ⟨m, x, d⟩ := o
  cases x with
  | none => exact absurd trivial h
  | plain k => exact ⟨s.raise .arithmeticOverflow, by simp only [indexStage, addIndex, fit_of_not_fits h], rfl⟩
  | preInc k => exact stepThenAdd_overflows h
  | postInc k => exact ⟨_, addThenStep_overflows h, rfl⟩
  | preDec k => exact stepThenAdd_overflows h
  | postDec k => exact ⟨_, addThenStep_overflows h, rfl⟩

end Sys2Proof.Machine
end

