-- ==== Sys2Proof/Tests/Slice0.lean ====
section
/-!
SUPPORT. The model's own tests. Part 1: the checks of WellFormed, and words written out from the encoding tables.
Part 2: one step at a time, with the words and the expected values of `95_test_vectors.md` (section in brackets).
Part 3: the assembler, with the source's examples. Part 4: for each statement with hypotheses, a concrete state
and operands that meet them.
-/

namespace Sys2Proof.Tests

open Sys2Proof Sys2Proof.Machine

/-! ### Part 1. WellFormed, Decode -/

theorem test_wellFormed_refuses_operand_above_range : (Instr.opt 0 ⟨.value, .none, 5000⟩).wellFormed = false := by decide
theorem test_wellFormed_refuses_operand_below_range : (Instr.spr ⟨.direct, .plain 1, -5001⟩).wellFormed = false := by decide
theorem test_wellFormed_refuses_core_spelling_of_push : (Instr.big 3 pushOperand).wellFormed = false := by decide
theorem test_wellFormed_refuses_core_spelling_of_pop : (Instr.hia 3 popOperand).wellFormed = false := by decide
theorem test_wellFormed_accepts_both_ends :
    (Instr.vsp .equal ⟨.address, .none, -5000⟩).wellFormed = true ∧
      (Instr.vsp .equal ⟨.address, .none, 4999⟩).wellFormed = true := by decide
theorem test_fields_valid_refuses_three_digit_opcode : (Fields.mk 100 1 1 0 9 0).valid = false := by decide
theorem test_fields_valid_refuses_wide_operand : (Fields.mk 32 2 1 9 9 7000).valid = false := by decide

-- Digits: OO M N A X DDDD (`30_encoding.md` R51), codes of R62, modes of R63 and R64, predicates of R65.
theorem test_decode_hia : decode 1131190005 = .ok (.hia 1 ⟨.direct, .none, 5⟩) := by decide
theorem test_decode_big : decode 1231190100 = .ok (.big 1 ⟨.direct, .none, 100⟩) := by decide
theorem test_decode_opt : decode 2113110000 = .ok (.opt 1 ⟨.value, .preInc 1, 0⟩) := by decide
theorem test_decode_aft : decode 2211199995 = .ok (.aft 1 ⟨.value, .none, -5⟩) := by decide
theorem test_decode_ver : decode 2315234999 = .ok (.ver 2 ⟨.value, .preDec 3, 4999⟩) := by decide
theorem test_decode_del : decode 2446075000 = .ok (.del 0 ⟨.indirect, .postDec 7, -5000⟩) := by decide
theorem test_decode_mod : decode 2514010000 = .ok (.mod 0 ⟨.value, .postInc 1, 0⟩) := by decide
theorem test_decode_vgl : decode 3122010000 = .ok (.vgl 0 ⟨.address, .plain 1, 0⟩) := by decide
theorem test_decode_spr : decode 3221997000 = .ok (.spr ⟨.address, .none, -3000⟩) := by decide
theorem test_decode_vsp : decode 3321490002 = .ok (.vsp .positive ⟨.address, .none, 2⟩) := by decide
theorem test_decode_sbr : decode 4123990020 = .ok (.sbr ⟨.address, .preInc 9, 20⟩) := by decide
theorem test_decode_zero_operand_words :
    decode 4299999999 = .ok .ktg ∧ decode 7299999999 = .ok .dru ∧ decode 7399999999 = .ok .nwl ∧
      decode 7499999999 = .ok .drs ∧ decode 9899999999 = .ok .nop ∧ decode 9999999999 = .ok .stp := by decide
theorem test_decode_macros : decode 1225380000 = .ok (.bst 3) ∧ decode 1134380000 = .ok (.hst 3) := by decide
theorem test_decode_negative_word : decode (-8888809995) = .ok (.hia 1 ⟨.value, .none, 5⟩) := by decide
theorem test_decode_data_word_is_halt : decode (-8) = .ok .stp := by decide
theorem test_decode_ignored_idx_digit : decode 1111010010 = .ok (.hia 0 ⟨.value, .none, 10⟩) := by decide
theorem test_decode_predicates :
    [3321190002, 3321290002, 3321390002, 3321490002, 3321590002, 3321690002].map (fun w => decode w) =
      [Predicate.equal, .notNegative, .notPositive, .positive, .negative, .notEqual].map
        (fun p => .ok (.vsp p ⟨.address, .none, 2⟩)) := by decide

theorem test_decode_rejects_unknown_opcodes :
    [0, 15, 1000000000, 1300000000, -9999999999, 10000000000, -10000000000].map (fun w => decode w) =
      List.replicate 7 (.error .unknownOpcode) := by decide
theorem test_decode_rejects_mode2_first :
    [1110090000, 1150090000, 3300090000, 1171090000, 1101090000, 3321090002, 3321790002].map (fun w => decode w) =
      [.error .unknownMode2, .error .unknownMode2, .error .unknownMode2, .error .unknownMode1,
        .error .unknownMode1, .error .badPredicate, .error .badPredicate] := by decide

theorem test_unpack_digits : unpack 1131190005 = some ⟨11, 3, 1, 1, 9, 5⟩ := by decide
theorem test_unpack_negative : unpack (-8) = some ⟨99, 9, 9, 9, 9, -8⟩ := by decide
theorem test_pack_reduces_operand : pack ⟨11, 1, 1, 0, 9, -5000⟩ = 1111095000 := by decide
theorem test_encode_sbr : encode (.sbr ⟨.address, .none, 6⟩) = 4121990006 := by decide
theorem test_address_of_negative : addressOf (-12345) = 7655 ∧ expandAddress 7655 = -2345 := by decide

theorem test_decodeTableWord : decodeTableWord 64 1131190005 = some (.hia 1 ⟨.direct, .none, 5⟩) := by decide
theorem test_decodeTableWord_refuses : decodeTableWord 40 1110090000 = none := by decide
theorem test_cellOfBits_is_twos_complement : cellOfBits 18446744073709551615 = -1 := by decide
theorem test_withFetchWord_is_fetched : (State.reset.withFetchWord 40 9999999999).fetch = 9999999999 := by decide

/-! ### Part 2. One step -/

/-- The state after a step or a meaning, if the answer is a next state. -/
def next? (r : Result) : Option State :=
  match r with
  | .next t => some t
  | .fault _ => none
  | .refused _ => none

/-- One cycle of `s` with the word `w` placed at `ip`. -/
def cycle (w : Int) (s : State) : Option State := next? (step (s.memWrite s.ip.val w))

/-- Reset with `x[k] = v`. -/
def atReg (k : Reg) (v : Int) : State := State.reset.setReg k v

/-- Reset with `Mem[a] = v`. -/
def atCell (a v : Int) : State := State.reset.memWrite a v

-- [2.2] pointer reduction; [2.3] the write-back overwrites the increment
theorem test_hia_indirect_reduces_pointer :
    (cycle 1141290100 ((atCell 100 1234567890).memWrite 7890 9)).map (fun t => (t.reg 2, t.cc)) =
      some (9, .positive) := by decide
theorem test_hia_own_index_register :
    (cycle 1134110000 ((atCell 50 7).setReg 1 50)).map (fun t => t.reg 1) = some 7 := by decide
-- [2.4], [2.3]
theorem test_big_indirect_stores_at_pointed_cell :
    (cycle 1231190100 ((atCell 100 300).setReg 1 (-7))).map (fun t => (t.memRead 300, t.memRead 100, t.cc)) =
      some (-7, 300, .negative) := by decide
theorem test_big_stores_decremented_register :
    (cycle 1225110000 (atReg 1 100)).map (fun t => (t.memRead 99, t.memRead 100)) = some (99, 0) := by decide
-- [2.5]
theorem test_opt_condition_is_the_operands :
    (cycle 2131290050 ((atCell 50 (-3)).setReg 2 10)).map (fun t => (t.reg 2, t.cc)) = some (7, .negative) := by decide
theorem test_opt_overflow :
    (cycle 2111090001 (atReg 0 9223372036854775807)).map (fun t => (t.reg 0, t.cc, t.fault)) =
      some (9223372036854775807, .equal, some .arithmeticOverflow) := by decide
theorem test_aft_subtracts_negative :
    (cycle 2211199995 (atReg 1 3)).map (fun t => (t.reg 1, t.cc)) = some (8, .negative) := by decide
theorem test_aft_overflow :
    (cycle 2211190001 (atReg 1 (-9223372036854775808))).map (fun t => t.fault) = some (some .arithmeticOverflow) := by
  decide
theorem test_ver_exceeds_ten_digits :
    (cycle 2312230000 ((atReg 2 3000000000).setReg 3 3000000000)).map (fun t => t.reg 2) =
      some 9000000000000000000 := by decide
theorem test_ver_overflow :
    (cycle 2311299999 (atReg 2 (-9223372036854775808))).map (fun t => t.fault) = some (some .arithmeticOverflow) := by
  decide
theorem test_del_truncates_toward_zero :
    [cycle 2411090002 (atReg 0 (-7)), cycle 2411099998 (atReg 0 7), cycle 2411099998 (atReg 0 (-7))].map
      (fun r => r.map fun t => (t.reg 0, t.cc)) =
      [some (-3, .positive), some (-3, .negative), some (3, .negative)] := by decide
theorem test_del_tests_zero_divisor_first :
    (cycle 2411090000 (atReg 0 (-9223372036854775808))).map (fun t => t.fault) = some (some .divideByZero) := by decide
theorem test_mod_takes_sign_of_dividend :
    [cycle 2511090002 (atReg 0 (-7)), cycle 2511099998 (atReg 0 7)].map
      (fun r => r.map fun t => (t.reg 0, t.cc)) = [some (-1, .positive), some (1, .negative)] := by decide
theorem test_mod_zero_divisor_keeps_index_change :
    (cycle 2514010000 (atReg 0 7)).map (fun t => (t.reg 0, t.reg 1, t.fault)) =
      some (7, 1, some .divideByZero) := by decide
-- [2.6]
theorem test_vgl_ignores_accumulator :
    (cycle 3112010000 ((atReg 0 99).setReg 1 (-4))).map (fun t => (t.cc, t.reg 0)) = some (.negative, 99) := by decide
theorem test_spr_indexed_wraps :
    (cycle 3222030100 (atReg 3 (-101))).map (fun t => t.ip) = some 9999 := by decide
theorem test_spr_indirect_reduces :
    (cycle 3231990050 (atCell 50 1234567)).map (fun t => t.ip) = some 4567 := by decide
theorem test_vsp_not_taken_still_resolves :
    (cycle 3324410100 ((atReg 1 5).setIp 3)).map (fun t => (t.reg 1, t.ip)) = some (6, 4) := by decide
theorem test_vsp_taken :
    (cycle 3324410100 (((atReg 1 5).setIp 3).setCC .positive)).map (fun t => (t.reg 1, t.ip)) = some (6, 105) := by
  decide
-- [2.7]
theorem test_sbr_stores_signed_return_address :
    (cycle 4121990100 ((atReg 9 9000).setIp 5999)).map (fun t => (t.reg 9, t.memRead 8999, t.ip)) =
      some (8999, -4000, 100) := by decide
theorem test_sbr_resolves_before_decrement :
    (cycle 4122990006 ((atReg 9 10).setIp 2)).map (fun t => (t.reg 9, t.memRead 9, t.ip)) = some (9, 3, 16) := by decide
theorem test_ktg_returns :
    (cycle 4299999999 (((atCell 8999 (-4000)).setReg 9 8999).setIp 10)).map (fun t => (t.reg 9, t.ip)) =
      some (9000, 6000) := by decide
theorem test_ktg_overflow :
    (cycle 4200000000 ((atReg 9 9223372036854775807).setIp 10)).map (fun t => (t.reg 9, t.ip, t.fault)) =
      some (9223372036854775807, 11, some .arithmeticOverflow) := by decide
-- [2.4]
theorem test_bst_of_the_stack_pointer :
    (cycle 1225880000 (atReg 8 100)).map (fun t => (t.reg 8, t.memRead 99, t.cc)) = some (99, 99, .positive) := by decide
theorem test_bst_overflow :
    (cycle 1225380000 (atReg 8 (-9223372036854775808))).map (fun t => (t.fault, t.cc)) =
      some (some .arithmeticOverflow, .equal) := by decide
theorem test_hst_of_the_stack_pointer :
    (cycle 1134880000 ((atCell 99 1234).setReg 8 99)).map (fun t => t.reg 8) = some 1234 := by decide
theorem test_hst_overflow :
    (cycle 1134380000 (atReg 8 9223372036854775807)).map (fun t => (t.reg 3, t.fault)) =
      some (0, some .arithmeticOverflow) := by decide
-- [2.8]
theorem test_nop_wraps : (cycle 9899999999 (State.reset.setIp 9999)).map (fun t => t.ip) = some 0 := by decide
theorem test_drs_prints_nothing : (cycle 7499999999 State.reset).map (fun t => (t.ip, t.out)) = some (1, []) := by decide
theorem test_dru_prints_register_zero :
    (cycle 7211590000 ((atReg 0 (-3)).setReg 5 8)).map (fun t => t.out) = some [.value (-3)] := by decide
theorem test_nwl : (cycle 7399999999 State.reset).map (fun t => t.out) = some [.newline] := by decide
theorem test_stp : (cycle 9999999999 State.reset).map (fun t => (t.halted, t.ip)) = some (true, 1) := by decide
theorem test_stopped_machine_stutters : cycle 9899999999 State.reset.halt = some (State.reset.halt.memWrite 0 9899999999) := by
  decide
-- [2.9], [2.1], [2.10]
theorem test_decode_fault_after_advance :
    (cycle 3300090000 (State.reset.setIp 7)).map (fun t => (t.ip, t.fault)) = some (8, some .unknownMode2) := by decide
theorem test_post_decrement_increments :
    (cycle 1116010010 (atReg 1 100)).map (fun t => (t.reg 0, t.reg 1)) = some (110, 101) := by decide
theorem test_pre_increment_survives_addition_overflow :
    (cycle 1113010010 (atReg 1 9223372036854775806)).map (fun t => (t.reg 1, t.fault)) =
      some (9223372036854775807, some .arithmeticOverflow) := by decide
theorem test_post_increment_overflow_writes_nothing :
    (cycle 1114019990 (atReg 1 9223372036854775807)).map (fun t => (t.reg 1, t.reg 0, t.fault)) =
      some (9223372036854775807, 0, some .arithmeticOverflow) := by decide
-- `20_memory.md` R38: the accesses of an indirect store and of a call
theorem test_accesses_of_indirect_store :
    State.accesses ((atCell 100 300).memWrite 0 1241190100) =
      [.read 0, .read 100, .read 300, .write 0 0] := by decide
theorem test_accesses_of_call : State.accesses (atCell 0 4121990006) = [.read 0, .write 9999 1] := by decide

/-! ### Part 3. The assembler -/

theorem test_assemble_halt : Asm.assemble "STP" = .ok [(0, 9999999999)] := by decide
theorem test_assemble_direct_load : Asm.assemble "hia r1, 5 | load" = .ok [(0, 1131190005)] := by decide
theorem test_assemble_backward_label :
    Asm.assemble "loop: OPT R0, R0\n VSP R4, loop\nEINDPR\n?" = .ok [(0, 2112000000), (1, 3321490000)] := by decide
theorem test_assemble_reservation :
    Asm.assemble "HIA.w R0, 1\nbuf: RESGR 3\nnext: STP" = .ok [(0, 1111090001), (4, 9999999999)] := by decide
theorem test_assemble_macros :
    Asm.assemble "BST R1\nHST R1" = .ok [(0, 1225180000), (1, 1134180000)] := by decide
theorem test_assemble_reports_first_error :
    Asm.assemble "HIA R1\nFOO BAR" = .error (.missingSecondOperand .hia) := by decide
theorem test_assemble_sugar_refuses_suffix :
    Asm.assemble "OPT.w R0, R0" = .error .registerRegisterConflict := by decide

/-! ### Part 4. Witnesses: the hypotheses of each statement are met -/

/-- A valid running state that is about to execute `w`, with `x[8] = 50`, `x[9] = 60` and `Mem[50] = 7`. -/
def ready (w : Int) : State :=
  { State.reset with x := #v[0, 0, 0, 0, 0, 0, 0, 0, 50, 60], mem := [(0, w), (50, 7)] }

theorem ready_regs_fit : ∀ i : Reg, Fits ((#v[0, 0, 0, 0, 0, 0, 0, 0, 50, 60] : Vector Int 10)[i]) := by decide

theorem ready_valid {w : Int} (h0 : w ≠ 0) (hw : Fits w) : (ready w).Valid where
  mem_wf := by
    have : decide (w ≠ Memory.unlisted) = true := decide_eq_true h0
    show (decide (0 ≤ (0 : Addr).val) && decide (w ≠ Memory.unlisted) && Memory.wfFrom 1 [(50, 7)]) = true
    rw [this]; decide
  regs_fit := ready_regs_fit
  cells_fit := by
    intro a
    simp only [ready, Memory.read]
    split
    · exact hw
    · split <;> decide
  out_fits := by intro n h; simp [ready, State.reset] at h
  one_condition := by simp [ready, State.reset]

theorem witness_EveryStepKeepsValid :
    (ready 9999999999).Valid ∧ step (ready 9999999999) = .next ((ready 9999999999).advance.halt) :=
  ⟨ready_valid (by decide) (by decide), rfl⟩
theorem witness_BootedMachineIsValid :
    ∀ p ∈ ([(0, 9223372036854775807), (-1, -9223372036854775808)] : List (Int × Int)), Fits p.2 := by decide
theorem witness_StepRunsTheDecodedInstruction :
    (ready 9999999999).Running ∧ decode ((ready 9999999999).mem.read (ready 9999999999).ip) = .ok .stp := by decide
theorem witness_UnknownOpcodeEndsTheCycle :
    ((ready 10000000000).Running ∧ unpack (ready 10000000000).fetch = none) ∧
      (ready 1300000000).Running ∧ unpack (ready 1300000000).fetch = some ⟨13, 0, 0, 0, 0, 0⟩ := by decide
theorem witness_ModeDigitsAreCheckedInOrder :
    ((ready 1150090000).Running ∧ unpack (ready 1150090000).fetch = some ⟨11, 5, 0, 0, 9, 0⟩) ∧
    ((ready 1171090000).Running ∧ unpack (ready 1171090000).fetch = some ⟨11, 7, 1, 0, 9, 0⟩) ∧
    ((ready 3346790002).Running ∧ unpack (ready 3346790002).fetch = some ⟨33, 4, 6, 7, 9, 2⟩) ∧
    (ready 3346690002).Running ∧ unpack (ready 3346690002).fetch = some ⟨33, 4, 6, 6, 9, 2⟩ := by decide
theorem witness_OpcodeSetIsClosed :
    unpack 1000000000 = some ⟨10, 0, 0, 0, 0, 0⟩ ∧ unpack 1100000000 = some ⟨11, 0, 0, 0, 0, 0⟩ ∧
      (ready 1000000000).Running ∧ decode (ready 1000000000).fetch = .error .unknownOpcode := by decide
theorem witness_IllegalModeDigitsFault :
    ((ready 1110090000).Running ∧ unpack (ready 1110090000).fetch = some ⟨11, 1, 0, 0, 9, 0⟩) ∧
      (ready 4191990000).Running ∧ unpack (ready 4191990000).fetch = some ⟨41, 9, 1, 9, 9, 0⟩ := by decide
theorem witness_OpcodeDigitsSelectTheOperation :
    unpack 3131590010 = some ⟨31, 3, 1, 5, 9, 10⟩ ∧ decode 3131590010 = .ok (.vgl 5 ⟨.direct, .none, 10⟩) := by decide
theorem witness_RunningHaltedFaulted :
    (ready 9999999999).Valid ∧ ¬(ready 9999999999).halt.Running ∧ (ready 9999999999).Running :=
  ⟨ready_valid (by decide) (by decide), by decide, by decide⟩
theorem witness_FaultingCycleKeepsTheOffendingWord :
    (ready 15).Running ∧ step (ready 15) = .next ((ready 15).advance.raise .unknownOpcode) ∧
      ((ready 15).advance.raise .unknownOpcode).fault.isSome = true := ⟨by decide, rfl, rfl⟩
theorem witness_ReadGivesTheLatestWrite : (-1 : Int) % 10000 = 9999 % 10000 ∧ (0 : Int) % 10000 ≠ 9999 % 10000 := by
  decide
theorem witness_EqualReadsAreEqualMemories :
    ((State.reset.memWrite 3 1).memWrite 2 5).mem.wf = true ∧ ((State.reset.memWrite 2 5).memWrite 3 1).mem.wf = true ∧
      ∀ a, ((State.reset.memWrite 3 1).memWrite 2 5).mem.read a = ((State.reset.memWrite 2 5).memWrite 3 1).mem.read a :=
  ⟨by decide, by decide, fun _ => rfl⟩
theorem witness_StoredWordIsFetchedNext :
    Resolvable ⟨.address, .none, 1⟩ (ready 1221090001).advance ∧
      addressOf (resolvedOperand ⟨.address, .none, 1⟩ (ready 1221090001).advance) = (ready 1221090001).advance.ip ∧
      ∃ t, exec (.big 0 ⟨.address, .none, 1⟩) (ready 1221090001).advance = .next t :=
  ⟨trivial, by decide, _, rfl⟩
theorem witness_AccessesAccountForMemory :
    (ready 9999999999).Running ∧ step (ready 9999999999) = .next ((ready 9999999999).advance.halt) :=
  ⟨by decide, rfl⟩
theorem witness_ExpandAddressRestoresTheSign : (4999 : Addr).val ≤ 4999 ∧ 5000 ≤ (5000 : Addr).val := by decide
theorem witness_CodecLaws :
    (Fields.mk 99 9 9 9 9 4999).valid = true ∧ ((0 : Int) ≤ 9999999999 ∧ (9999999999 : Int) < 10 ^ 10) ∧
      (-(10 ^ 10) < (-9999999999 : Int) ∧ (-9999999999 : Int) < 0) := by decide
theorem witness_NegativeWordDecodesAsItsComplement : -(10 ^ 10) < (-1 : Int) ∧ (-1 : Int) < 0 := by decide
theorem witness_DecodeUndoesEncode :
    (Instr.hia 9 ⟨.indirect, .postDec 9, -5000⟩).wellFormed = true ∧ (Instr.bst 8).wellFormed = true := by decide
theorem witness_IgnoredDigitsSelectNothing :
    (unpack 4200000000 = some ⟨42, 0, 0, 0, 0, 0⟩ ∧ unpack 4299999999 = some ⟨42, 9, 9, 9, 9, -1⟩) ∧
    (unpack 3221990002 = some ⟨32, 2, 1, 9, 9, 2⟩ ∧ unpack 3221090002 = some ⟨32, 2, 1, 0, 9, 2⟩) ∧
    unpack 1111090010 = some ⟨11, 1, 1, 0, 9, 10⟩ ∧ unpack 1111010010 = some ⟨11, 1, 1, 0, 1, 10⟩ := by decide
theorem witness_MacrosRunAsTheirExpansions :
    Fits ((ready 1134180000).reg 8) ∧ Fits ((atReg 8 9223372036854775807).reg 8) := by decide
theorem witness_NamingTheMacrosChangesNoCycle :
    (ready 1134180000).Valid ∧ decode 1134180000 = .ok (.hst 1) ∧ decodeCore 1134180000 = .ok (.hia 1 popOperand) :=
  ⟨ready_valid (by decide) (by decide), by decide, by decide⟩
theorem witness_IndexationStageTable :
    (Fits ((atReg 1 9223372036854775806).reg 1 + 1) ∧ Fits (0 + ((atReg 1 9223372036854775806).reg 1 + 1))) ∧
      (Fits ((atReg 1 (-9223372036854775807)).reg 1 - 1) ∧ Fits (0 + ((atReg 1 (-9223372036854775807)).reg 1 - 1))) ∧
      Fits (1 + (atReg 1 9223372036854775806).reg 1) ∧
      Fits ((atReg 1 9223372036854775806).reg 1 + Config.postDecDelta) := by decide
theorem witness_IndexationOverflowFaults :
    (Instr.hia 0 ⟨.value, .preInc 1, 10⟩).operand? = some ⟨.value, .preInc 1, 10⟩ ∧
      (Instr.hia 0 ⟨.value, .preInc 1, 10⟩).expand = .hia 0 ⟨.value, .preInc 1, 10⟩ ∧
      ¬Resolvable ⟨.value, .preInc 1, 10⟩ (atReg 1 9223372036854775807) ∧
      ¬Resolvable ⟨.value, .preInc 1, 10⟩ (atReg 1 9223372036854775806) :=
  ⟨rfl, rfl, fun h => absurd h.1 (by decide), fun h => absurd h.2 (by decide)⟩

/-- A word for each operand-taking opcode, with the opcode digits its fields carry. -/
theorem witness_SelectedBy :
    [1131190005, 1231190100, 2111090001, 2211190001, 2311290003, 2411090002, 2511090003, 3112010000, 3221990002,
      3321490002, 4121990006].map (fun w => (unpack w).map fun f => (f.op, (decodeOperand f).isOk)) =
    [some (11, true), some (12, true), some (21, true), some (22, true), some (23, true), some (24, true),
      some (25, true), some (31, true), some (32, true), some (33, true), some (41, true)] := by decide

theorem witness_HiaLoadsTheResolvedOperand : Resolvable ⟨.value, .preInc 1, 0⟩ (atReg 1 9223372036854775806) :=
  ⟨by decide, by decide⟩
theorem witness_BigStoresTheAccumulator : Resolvable ⟨.address, .postInc 1, 1⟩ (atReg 1 9223372036854775806) :=
  ⟨by decide, by decide⟩
theorem witness_BstPushesTheRegister :
    Fits ((atReg 8 (-9223372036854775807)).reg 8 - 1) ∧ ¬Fits ((atReg 8 (-9223372036854775808)).reg 8 - 1) := by decide
theorem witness_HstPopsIntoTheRegister :
    Fits ((atReg 8 9223372036854775806).reg 8 + 1) ∧ ¬Fits ((atReg 8 9223372036854775807).reg 8 + 1) := by decide

/-- The literal operand `n`. -/
def literal (n : Int) : Operand := ⟨.value, .none, n⟩

theorem literal_resolvable (n : Int) (s : State) : Resolvable (literal n) s := trivial

theorem witness_OptAdds :
    Resolvable (literal 1) (atReg 0 9223372036854775806) ∧
    Fits (regsAfterIndex (literal 1) (atReg 0 9223372036854775806) 0 +
      resolvedOperand (literal 1) (atReg 0 9223372036854775806)) ∧
    ¬Fits (regsAfterIndex (literal 1) (atReg 0 9223372036854775807) 0 +
      resolvedOperand (literal 1) (atReg 0 9223372036854775807)) := ⟨trivial, by decide, by decide⟩
theorem witness_AftSubtracts :
    Resolvable (literal 1) (atReg 0 (-9223372036854775807)) ∧
    Fits (regsAfterIndex (literal 1) (atReg 0 (-9223372036854775807)) 0 -
      resolvedOperand (literal 1) (atReg 0 (-9223372036854775807))) ∧
    ¬Fits (regsAfterIndex (literal 1) (atReg 0 (-9223372036854775808)) 0 -
      resolvedOperand (literal 1) (atReg 0 (-9223372036854775808))) := ⟨trivial, by decide, by decide⟩
theorem witness_VerMultiplies :
    Resolvable (literal 2) (atReg 0 (-4611686018427387904)) ∧
    Fits (regsAfterIndex (literal 2) (atReg 0 (-4611686018427387904)) 0 *
      resolvedOperand (literal 2) (atReg 0 (-4611686018427387904))) ∧
    ¬Fits (regsAfterIndex (literal 2) (atReg 0 4611686018427387904) 0 *
      resolvedOperand (literal 2) (atReg 0 4611686018427387904)) := ⟨trivial, by decide, by decide⟩
theorem witness_DelDivides :
    (Resolvable (literal 0) State.reset ∧ resolvedOperand (literal 0) State.reset = 0) ∧
    (resolvedOperand (literal (-1)) (atReg 0 (-9223372036854775807)) ≠ 0 ∧
      Fits (Int.tdiv (regsAfterIndex (literal (-1)) (atReg 0 (-9223372036854775807)) 0)
        (resolvedOperand (literal (-1)) (atReg 0 (-9223372036854775807))))) ∧
    resolvedOperand (literal (-1)) (atReg 0 (-9223372036854775808)) ≠ 0 ∧
      ¬Fits (Int.tdiv (regsAfterIndex (literal (-1)) (atReg 0 (-9223372036854775808)) 0)
        (resolvedOperand (literal (-1)) (atReg 0 (-9223372036854775808)))) :=
  ⟨⟨trivial, by decide⟩, by decide, by decide⟩
theorem witness_ModTakesTheRemainder :
    (Resolvable (literal 0) State.reset ∧ resolvedOperand (literal 0) State.reset = 0) ∧
    (resolvedOperand (literal (-1)) (atReg 0 (-9223372036854775808)) = -1 ∧
      regsAfterIndex (literal (-1)) (atReg 0 (-9223372036854775808)) 0 = Config.valMin) ∧
    resolvedOperand (literal (-1)) (atReg 0 (-9223372036854775807)) ≠ 0 ∧
      ¬(resolvedOperand (literal (-1)) (atReg 0 (-9223372036854775807)) = -1 ∧
        regsAfterIndex (literal (-1)) (atReg 0 (-9223372036854775807)) 0 = Config.valMin) :=
  ⟨⟨trivial, by decide⟩, by decide, by decide⟩
theorem witness_QuotientAndRemainderMatch :
    Fits (-9223372036854775808) ∧ Fits (-1) ∧ (-9223372036854775808 : Int) = Config.valMin ∧
      ¬((-9223372036854775807 : Int) = Config.valMin ∧ (-1 : Int) = -1) := by decide

theorem witness_VglTestsTheOperand : Resolvable ⟨.direct, .preDec 1, 0⟩ (atReg 1 (-9223372036854775807)) :=
  ⟨by decide, by decide⟩
theorem witness_SprJumps : Resolvable ⟨.address, .plain 1, 4999⟩ (atReg 1 9223372036854770808) :=
  show Fits _ by decide
theorem witness_VspJumpsWhenThePredicateHolds :
    Resolvable ⟨.address, .postDec 1, 0⟩ (atReg 1 9223372036854775806) ∧
      (Predicate.positive.digit = 4 ∧ (State.reset.setCC .positive).cc = .positive) ∧
      ¬(Predicate.positive.digit = 4 ∧ State.reset.cc = .positive) := ⟨⟨by decide, by decide⟩, by decide, by decide⟩
theorem witness_DirectJumpReachesEveryCell :
    (ready 3221999999).Running ∧ (ready 3221999999).fetch = 3221990000 + ((9999 : Addr).val : Int) := by decide
theorem witness_SbrCalls :
    Resolvable (literal 6) State.reset ∧
    Fits (regsAfterIndex (literal 6) (atReg 9 (-9223372036854775807)) 9 - 1) ∧
    ¬Fits (regsAfterIndex (literal 6) (atReg 9 (-9223372036854775808)) 9 - 1) := ⟨trivial, by decide, by decide⟩
theorem witness_KtgReturns :
    unpack 4200000000 = some ⟨42, 0, 0, 0, 0, 0⟩ ∧ Fits ((atReg 9 9223372036854775806).reg 9 + 1) ∧
      ¬Fits ((atReg 9 9223372036854775807).reg 9 + 1) := by decide
theorem witness_ReturnUndoesCall :
    Resolvable (literal 6) (atReg 9 (-9223372036854775807)) ∧
    Fits (regsAfterIndex (literal 6) (atReg 9 (-9223372036854775807)) 9) ∧
    Fits (regsAfterIndex (literal 6) (atReg 9 (-9223372036854775807)) 9 - 1) := ⟨trivial, by decide, by decide⟩

theorem witness_NopAndDrsOnlyAdvance :
    ((ready 9800000000).Running ∧ unpack (ready 9800000000).fetch = some ⟨98, 0, 0, 0, 0, 0⟩) ∧
      (ready 7499999999).Running ∧ unpack (ready 7499999999).fetch = some ⟨74, 9, 9, 9, 9, -1⟩ := by decide
theorem witness_DruAndNwlAppendTheirToken :
    ((ready 7211590000).Running ∧ unpack (ready 7211590000).fetch = some ⟨72, 1, 1, 5, 9, 0⟩) ∧
      (ready 7399999999).Running ∧ unpack (ready 7399999999).fetch = some ⟨73, 9, 9, 9, 9, -1⟩ := by decide
theorem witness_StpHaltsForGood :
    ((ready (-8)).Running ∧ unpack (ready (-8)).fetch = some ⟨99, 9, 9, 9, 9, -8⟩) ∧
      exec .stp State.reset = .next State.reset.halt := ⟨by decide, rfl⟩

theorem witness_OtherRegistersAreUnchanged :
    (∃ t, exec (.opt 0 ⟨.value, .preInc 1, 0⟩) State.reset = .next t) ∧
      (2 : Reg) ∉ mayWrite (.opt 0 ⟨.value, .preInc 1, 0⟩) := ⟨⟨_, rfl⟩, by decide⟩
theorem witness_OtherCellsAreUnchanged :
    (∃ t, exec (.big 0 (literal 100)) State.reset = .next t) ∧
      storesTo (.big 0 (literal 100)) State.reset ≠ some 101 ∧ storesTo .ktg State.reset ≠ some 101 :=
  ⟨⟨_, rfl⟩, by decide, by decide⟩
theorem witness_FlagsAndOutputHaveTheirWriters :
    (∃ t, exec (.spr (literal 100)) State.reset = .next t) ∧ writesCC (.spr (literal 100)) = false := ⟨⟨_, rfl⟩, rfl⟩

theorem witness_RegisterSugarIsPlainIndexing : Asm.evalSubset ['0'] [] = some 0 := by decide
theorem witness_AssembledInstructionsDecode :
    (Asm.instrFields Asm.evalSubset [] (.core .spr) none "7000".toList).map pack = .ok 3221997000 ∧
      (Asm.instrFields Asm.evalSubset [] (.core .vsp) none "R0, 2".toList).map pack = .ok 3321090002 ∧
      decode 3321090002 = .error .badPredicate := by decide

end Sys2Proof.Tests
end

section
/-!
The memory statements (`20_memory.md`).
-/

namespace Sys2Proof.Machine

/-- How a state looks after `MemWrite`: only the cells differ, by the write's update of one of them. -/
theorem State.view_memWrite (s : State) (n v : Int) :
    (s.memWrite n v).view = { s.view with cells := Function.update s.mem.read (addressOf n) v } := by
  have cells : (s.memWrite n v).mem.read = Function.update s.mem.read (addressOf n) v := by
    rw [State.memWrite_mem, Memory.read_write_fun]
  calc (s.memWrite n v).view
      _ = { s.view with cells := (s.memWrite n v).mem.read } := rfl
      _ = { s.view with cells := Function.update s.mem.read (addressOf n) v } := by rw [cells]

end Sys2Proof.Machine

namespace Sys2Proof.Proofs

open Sys2Proof.Machine

/-- Settles O15: the view after the write, with the cells named through the view before it. -/
theorem memWriteSetsOneCell : Obligations.MemWriteSetsOneCell := by
  intro s n v
  rw [State.view_memWrite, State.view_cells]

end Sys2Proof.Proofs
end

section
/-!
The codec's numbers (`30_encoding.md` R54, R55, R58).
-/

namespace Sys2Proof

theorem expandAddress_of_le {u : Addr} (h : u.val ≤ 4999) : expandAddress u = u.val :=
  if_pos (by omega)

theorem expandAddress_of_ge {u : Addr} (h : 5000 ≤ u.val) : expandAddress u = (u.val : Int) - 10000 :=
  if_neg (by omega)

/-- A word of ten digits is split as it stands. -/
theorem unpack_of_nonneg {w : Int} (h0 : 0 ≤ w) (h1 : w < 10 ^ 10) : unpack w = some (fieldsOf w.toNat) := by
  rw [unpack, if_neg (by omega), if_pos h0]

/-- A negative word is split as its ten's complement (R58). -/
theorem unpack_of_neg {w : Int} (h0 : -(10 ^ 10) < w) (h1 : w < 0) :
    unpack w = some (fieldsOf (w + 10 ^ 10).toNat) := by
  rw [unpack, if_neg (by omega), if_neg (by omega)]

theorem unpack_neg_eq_complement {w : Int} (h0 : -(10 ^ 10) < w) (h1 : w < 0) :
    unpack w = unpack (w + 10 ^ 10) := by
  rw [unpack_of_neg h0 h1, unpack_of_nonneg (by omega) (by omega)]

/-- The decoder sees a word through its fields alone. -/
theorem decode_congr {w w' : Int} (h : unpack w = unpack w') : decode w = decode w' := by
  rw [decode, decode, decodeCore, decodeCore, h]

end Sys2Proof

namespace Sys2Proof.Proofs

open Sys2Proof Sys2Proof.Machine

/-- Settles O20: the value is the remainder, so integers 10000 apart have the same address. -/
theorem addressOfIsTheRemainder : Obligations.AddressOfIsTheRemainder := by
  intro n
  have same : n % 10000 = (n + 10000) % 10000 := by omega
  exact ⟨addressOf_val n, (addressOf_eq_iff n (n + 10000)).mpr same⟩

/-- Settles O21: the range follows from the two clauses, which cover every cell number. -/
theorem expandAddressRestoresTheSign : Obligations.ExpandAddressRestoresTheSign := by
  intro u
  have range : -5000 ≤ expandAddress u ∧ expandAddress u ≤ 4999 := by
    rcases Nat.lt_or_ge u.val 5000 with low | high
    · rw [expandAddress_of_le (by omega)]
      omega
    · rw [expandAddress_of_ge high]
      omega
  exact ⟨expandAddress_of_le, expandAddress_of_ge, range⟩

/-- Settles O23: the two words have the same fields, and a store keeps the word as it is. -/
theorem negativeWordDecodesAsItsComplement : Obligations.NegativeWordDecodesAsItsComplement := by
  intro w h0 h1
  have fields : unpack w = unpack (w + 10 ^ 10) := unpack_neg_eq_complement h0 h1
  refine ⟨fields, decode_congr fields, fun s n => ?_⟩
  rw [State.memRead_memWrite, if_pos rfl]

end Sys2Proof.Proofs
end

section
/-!
The mode checks of the operand-taking opcodes (`30_encoding.md` R69, `40_cycle_decode_resolve.md` R103), and the cycle
whose word the decoder rejects.
-/

namespace Sys2Proof

/-- The mode-2 digits without an indexation are those outside 1 to 6 (R64). -/
theorem Indexation.ofDigits_eq_none_iff (m2 idx : Fin 10) :
    Indexation.ofDigits m2 idx = .none ↔ m2 ∉ [1, 2, 3, 4, 5, 6] := by
  simp [Indexation.ofDigits, Indexation.digit, eq_comm (a := m2)]

/-- The mode-1 digits without an interpretation are those outside 1 to 4 (R63). -/
theorem Interp.ofDigit_eq_none_iff (m1 : Fin 10) : Interp.ofDigit m1 = .none ↔ m1 ∉ [1, 2, 3, 4] := by
  simp [Interp.ofDigit, Interp.digit, eq_comm (a := m1)]

/-- Mode-2 is checked first, whatever mode-1 is. -/
theorem decodeOperand_of_illegal_m2 {f : Fields} (h2 : f.m2 ∉ [1, 2, 3, 4, 5, 6]) :
    decodeOperand f = .error .unknownMode2 := by
  rw [decodeOperand, (Indexation.ofDigits_eq_none_iff f.m2 f.idx).mpr h2]

theorem decodeOperand_of_illegal_m1 {f : Fields} (h2 : f.m2 ∈ [1, 2, 3, 4, 5, 6]) (h1 : f.m1 ∉ [1, 2, 3, 4]) :
    decodeOperand f = .error .unknownMode1 := by
  have indexed : Indexation.ofDigits f.m2 f.idx ≠ none :=
    fun missing => (Indexation.ofDigits_eq_none_iff f.m2 f.idx).mp missing h2
  obtain ⟨x, hx⟩ := Option.ne_none_iff_exists'.mp indexed
  simp only [decodeOperand, hx, (Interp.ofDigit_eq_none_iff f.m1).mpr h1]

/-- The eleven function codes of the operand-taking opcodes (R60, R62). -/
theorem Opcode.ofCode_operandTaking {n : Nat} (h : n ∈ [11, 12, 21, 22, 23, 24, 25, 31, 32, 33, 41]) :
    ∃ c, Opcode.ofCode n = some c ∧ c.kind ≠ .zeroOperand := by
  have table : ∀ n ∈ [11, 12, 21, 22, 23, 24, 25, 31, 32, 33, 41],
      ∃ c ∈ Opcode.all, Opcode.ofCode n = some c ∧ c.kind ≠ .zeroOperand := by decide
  obtain ⟨c, -, code, kind⟩ := table n h
  exact ⟨c, code, kind⟩

/-- An operand-taking opcode is rejected with its operand; the zero-operand ones never look at it. -/
theorem decodeAs_of_operand_error {c : Opcode} {f : Fields} {e : DecodeError} (hc : c.kind ≠ .zeroOperand)
    (h : decodeOperand f = .error e) : decodeAs c f = .error e := by
  cases c with
  | ktg | dru | nwl | drs | nop | stp => exact absurd rfl hc
  | vsp => simp only [decodeAs, h, Except.bind]
  | hia | big | opt | aft | ver | del | mod | vgl | spr | sbr => simp only [decodeAs, h, Except.map]

theorem decode_of_opcode {w : Int} {f : Fields} {c : Opcode} (hf : unpack w = some f)
    (hc : Opcode.ofCode f.op = some c) : decode w = (decodeAs c f).map Instr.tableName := by
  simp only [decode, decodeCore, hf, hc]

/-- A word of an operand-taking opcode is rejected with its operand. -/
theorem decode_of_operand_error {w : Int} {f : Fields} {e : DecodeError} (hf : unpack w = some f)
    (hop : f.op ∈ [11, 12, 21, 22, 23, 24, 25, 31, 32, 33, 41]) (h : decodeOperand f = .error e) :
    decode w = .error e := by
  obtain ⟨c, code, kind⟩ := Opcode.ofCode_operandTaking hop
  rw [decode_of_opcode hf code, decodeAs_of_operand_error kind h, Except.map]

end Sys2Proof

namespace Sys2Proof.Machine

theorem State.Running.not_stopped {s : State} (h : s.Running) : s.stopped = false := by
  rw [State.stopped, h.1, h.2]
  rfl

/-- A running machine raises the decoder's rejection after the advance (R102, R103). -/
theorem step_of_decode_error {s : State} {e : DecodeError} (hs : s.Running) (h : decode s.fetch = .error e) :
    step s = .next (s.advance.raise (Fault.ofDecode e)) := by
  simp [step, hs.not_stopped, h]

end Sys2Proof.Machine

namespace Sys2Proof.Proofs

open Sys2Proof Sys2Proof.Machine

/-- Settles O10: the operand check rejects the word by mode-2 when that digit is illegal, else by mode-1, and the
step raises what the check answers. -/
theorem illegalModeDigitsFault : Obligations.IllegalModeDigitsFault := by
  intro s f hs hf hop hbad
  have raises : ∀ e, decodeOperand f = .error e → step s = .next (s.advance.raise (Fault.ofDecode e)) :=
    fun e he => step_of_decode_error hs (decode_of_operand_error hf hop he)
  by_cases h2 : f.m2 ∈ [1, 2, 3, 4, 5, 6]
  · have h1 : f.m1 ∉ [1, 2, 3, 4] := hbad.resolve_left (not_not_intro h2)
    exact ⟨_, _, raises _ (decodeOperand_of_illegal_m1 h2 h1), rfl, .inr ⟨rfl, h1⟩⟩
  · exact ⟨_, _, raises _ (decodeOperand_of_illegal_m2 h2), rfl, .inl ⟨rfl, h2⟩⟩

end Sys2Proof.Proofs
end

section
/-!
The tables of the two stages of operand resolution (`40_cycle_decode_resolve.md` R106, R108).
-/

namespace Sys2Proof.Machine

theorem addIndex_resolves {d : Int} {k : Reg} {s : State} (h : Fits (d + s.reg k)) :
    addIndex d k s = .ok (d + s.reg k, s) := by
  rw [addIndex, fit_of_fits h]

end Sys2Proof.Machine

namespace Sys2Proof.Proofs

open Sys2Proof Sys2Proof.Machine

/-- Settles O30: every kind but the first two is one of the two orders of stepping and adding, by its own step. -/
theorem indexationStageTable : Obligations.IndexationStageTable := by
  intro d k s
  refine ⟨?none, ?plain, ?preInc, ?postInc, ?preDec, ?postDec⟩
  case none => rfl
  case plain => exact addIndex_resolves
  case preInc => exact stepThenAdd_resolves
  case postInc => exact addThenStep_resolves
  case preDec =>
    rw [Int.sub_eq_add_neg]
    exact stepThenAdd_resolves
  case postDec => exact addThenStep_resolves

/-- Settles O32: the address interpretation is the remainder; the other three are the value and one or two reads. -/
theorem valueStageTable : Obligations.ValueStageTable := by
  intro a s
  have address : valueStage .address a s = a % 10000 := addressOf_val a
  exact ⟨rfl, address, rfl, rfl⟩

end Sys2Proof.Proofs
end

section
/-!
The load and the store (`41_load_store.md` R120, R121), with the two facts they share with the other instructions that
take an operand: which words a function code selects, and the state in which the operation starts.
-/

namespace Sys2Proof

/-- The decoder finds every opcode by its function code (R62). -/
theorem Opcode.ofCode_code (c : Opcode) : Opcode.ofCode c.code = some c := by
  cases c <;> rfl

theorem decodeCore_of_code {w : Int} {f : Fields} {c : Opcode} (hf : unpack w = some f) (hc : f.op = c.code) :
    decodeCore w = decodeAs c f := by
  simp only [decodeCore, hf, hc, Opcode.ofCode_code]

end Sys2Proof

namespace Sys2Proof.Machine

/-- An opcode whose decoding only adds the acc digit to the decoded operand is selected by its function code. -/
theorem selectedBy_of_decodeAs {c : Opcode} {mk : Reg → Operand → Instr}
    (h : ∀ f, decodeAs c f = (decodeOperand f).map (mk f.acc)) : SelectedBy c.code mk := by
  intro w f o hf hc ho
  rw [decodeCore_of_code hf hc, h, ho, Except.map]

/-- The instruction of a resolvable operand ends as its operation does, from a state in which the indexation stage
has changed the registers and nothing else (R105). -/
theorem endsIn_withOperand {o : Operand} {s : State} {operation : Int → State → Result} {v : View}
    (h : Resolvable o s)
    (ends : ∀ t : State, t.view = { s.view with regs := regsAfterIndex o s } →
      EndsIn (operation (resolvedOperand o s) t) v) :
    EndsIn (withOperand o s operation) v := by
  obtain ⟨t, resolved, view⟩ := resolve_of_resolvable h
  have run : withOperand o s operation = operation (resolvedOperand o s) t := by rw [withOperand, resolved]
  rw [run]
  exact ends t view

theorem exec_hia (a : Reg) (o : Operand) (s : State) :
    exec (.hia a o) s = withOperand o s fun v t => .next ((t.setReg a v).setCC (sign v)) := rfl

theorem exec_big (a : Reg) (o : Operand) (s : State) :
    exec (.big a o) s =
      withOperand o s fun v t => .next ((t.memWrite v (t.reg a)).setCC (sign (t.reg a))) := rfl

end Sys2Proof.Machine

namespace Sys2Proof.Proofs

open Sys2Proof Sys2Proof.Machine

/-- Settles O34: the load writes over the registers the indexation stage left, so it prevails on the index register
(R112). -/
theorem hiaLoadsTheResolvedOperand : Obligations.HiaLoadsTheResolvedOperand := by
  refine ⟨selectedBy_of_decodeAs (c := .hia) fun _ => rfl, fun a o s h => ?_⟩
  rw [exec_hia]
  refine endsIn_withOperand h fun t view => ⟨_, rfl, ?_⟩
  have regs : t.reg = regsAfterIndex o s := congrArg View.regs view
  rw [State.view_setCC, State.view_setReg, view, regs]

/-- Settles O35: the indexation stage leaves the cells alone, and the register stored is read after it (R112). -/
theorem bigStoresTheAccumulator : Obligations.BigStoresTheAccumulator := by
  refine ⟨selectedBy_of_decodeAs (c := .big) fun _ => rfl, fun a o s h => ?_⟩
  rw [exec_big]
  refine endsIn_withOperand h fun t view => ⟨_, rfl, ?_⟩
  have regs : t.reg = regsAfterIndex o s := congrArg View.regs view
  have cells : t.mem.read = s.mem.read := congrArg View.cells view
  rw [State.view_setCC, State.view_memWrite, view, regs, cells]

end Sys2Proof.Proofs
end

section
/-!
The sum, the difference and the product (`42_arithmetic.md` R125 to R127), with the two ways an arithmetic instruction
of a resolvable operand ends, whatever its result is computed by.
-/

namespace Sys2Proof.Machine

theorem State.view_raise (s : State) (f : Fault) : (s.raise f).view = { s.view with fault := some f } := rfl

theorem fitted_of_fits {v : Int} (h : Fits v) : fitted v = .ok v := by
  rw [fitted, fit_of_fits h]

theorem fitted_of_not_fits {v : Int} (h : ¬Fits v) : fitted v = .error .arithmeticOverflow := by
  rw [fitted, fit_of_not_fits h]

section Accumulating

variable {a : Reg} {o : Operand} {s : State} {result : Int → Int → Except Fault Int}

/-- The accumulator takes the result over the registers the indexation stage left; the condition code is the
operand's (R132). -/
theorem endsIn_accumulate_of_ok {r : Int} (h : Resolvable o s)
    (hr : result (regsAfterIndex o s a) (resolvedOperand o s) = .ok r) :
    EndsIn (withOperand o s fun v t => accumulate a v (result (t.reg a) v) t)
      { s.view with
        regs := Function.update (regsAfterIndex o s) a r
        cc := sign (resolvedOperand o s) } := by
  refine endsIn_withOperand h fun t view => ?_
  have regs : t.reg = regsAfterIndex o s := congrArg View.regs view
  rw [regs, hr]
  refine ⟨_, rfl, ?_⟩
  rw [State.view_setCC, State.view_setReg, view, regs]

/-- A result that faults leaves the accumulator and the condition code as the indexation stage left them. -/
theorem endsIn_accumulate_of_error {e : Fault} (h : Resolvable o s)
    (he : result (regsAfterIndex o s a) (resolvedOperand o s) = .error e) :
    EndsIn (withOperand o s fun v t => accumulate a v (result (t.reg a) v) t)
      { s.view with regs := regsAfterIndex o s, fault := some e } := by
  refine endsIn_withOperand h fun t view => ?_
  have regs : t.reg = regsAfterIndex o s := congrArg View.regs view
  rw [regs, he]
  refine ⟨_, rfl, ?_⟩
  rw [State.view_raise, view]

/-- An arithmetic instruction whose result is a number that must fit (R130). -/
theorem endsIn_accumulate_fitted (f : Int → Int → Int) (h : Resolvable o s) :
    (Fits (f (regsAfterIndex o s a) (resolvedOperand o s)) →
      EndsIn (withOperand o s fun v t => accumulate a v (fitted (f (t.reg a) v)) t)
        { s.view with
          regs := Function.update (regsAfterIndex o s) a (f (regsAfterIndex o s a) (resolvedOperand o s))
          cc := sign (resolvedOperand o s) }) ∧
    (¬Fits (f (regsAfterIndex o s a) (resolvedOperand o s)) →
      EndsIn (withOperand o s fun v t => accumulate a v (fitted (f (t.reg a) v)) t)
        { s.view with regs := regsAfterIndex o s, fault := some .arithmeticOverflow }) :=
  ⟨fun fits => endsIn_accumulate_of_ok (result := fun x v => fitted (f x v)) h (fitted_of_fits fits),
    fun overflow => endsIn_accumulate_of_error (result := fun x v => fitted (f x v)) h (fitted_of_not_fits overflow)⟩

end Accumulating

theorem exec_opt (a : Reg) (o : Operand) (s : State) :
    exec (.opt a o) s = withOperand o s fun v t => accumulate a v (fitted (t.reg a + v)) t := rfl

theorem exec_aft (a : Reg) (o : Operand) (s : State) :
    exec (.aft a o) s = withOperand o s fun v t => accumulate a v (fitted (t.reg a - v)) t := rfl

theorem exec_ver (a : Reg) (o : Operand) (s : State) :
    exec (.ver a o) s = withOperand o s fun v t => accumulate a v (fitted (t.reg a * v)) t := rfl

end Sys2Proof.Machine

namespace Sys2Proof.Proofs

open Sys2Proof Sys2Proof.Machine

/-- Settles O38: the sum that must fit is of the accumulator as the indexation stage left it, and the operand. -/
theorem optAdds : Obligations.OptAdds := by
  refine ⟨selectedBy_of_decodeAs (c := .opt) fun _ => rfl, fun a o s h => ?_⟩
  rw [exec_opt]
  exact endsIn_accumulate_fitted (· + ·) h

/-- Settles O39: the number that must fit is the accumulator less the operand. -/
theorem aftSubtracts : Obligations.AftSubtracts := by
  refine ⟨selectedBy_of_decodeAs (c := .aft) fun _ => rfl, fun a o s h => ?_⟩
  rw [exec_aft]
  exact endsIn_accumulate_fitted (· - ·) h

/-- Settles O40: the number that must fit is the whole product; there is no high half. -/
theorem verMultiplies : Obligations.VerMultiplies := by
  refine ⟨selectedBy_of_decodeAs (c := .ver) fun _ => rfl, fun a o s h => ?_⟩
  rw [exec_ver]
  exact endsIn_accumulate_fitted (· * ·) h

end Sys2Proof.Proofs
end

section
/-!
Compare and conditional jump (`43_compare_branch.md` R135, R137).
-/

namespace Sys2Proof

/-- A conditional jump is its operand and the predicate of its acc digit (R65). -/
theorem decodeAs_vsp {f : Fields} {o : Operand} {p : Predicate} (ho : decodeOperand f = .ok o)
    (hp : Predicate.ofDigit f.acc = some p) : decodeAs .vsp f = .ok (.vsp p o) := by
  simp only [decodeAs, ho, Except.bind, decodePredicate, hp]

end Sys2Proof

namespace Sys2Proof.Machine

/-- The predicates in the terms of R65: what each selector digit asks of the condition code. -/
theorem predicateHolds_iff (p : Predicate) (c : CondCode) :
    predicateHolds p c = true ↔
      (p.digit = 1 ∧ c = .equal) ∨ (p.digit = 2 ∧ c ≠ .negative) ∨ (p.digit = 3 ∧ c ≠ .positive) ∨
        (p.digit = 4 ∧ c = .positive) ∨ (p.digit = 5 ∧ c = .negative) ∨ (p.digit = 6 ∧ c ≠ .equal) := by
  cases p with
  | equal | notNegative | notPositive | positive | negative | notEqual =>
    simp [predicateHolds, Predicate.digit]

theorem exec_vgl (a : Reg) (o : Operand) (s : State) :
    exec (.vgl a o) s = withOperand o s fun v t => .next (t.setCC (sign v)) := rfl

theorem exec_vsp (p : Predicate) (o : Operand) (s : State) :
    exec (.vsp p o) s =
      withOperand o s fun v t => .next (if predicateHolds p t.cc then t.setIp (addressOf v) else t) := rfl

/-- The indexation stage leaves the condition code alone, so the predicate is tested on the code the instruction
started with; the index register changes whether or not it holds (R110). -/
theorem endsIn_vsp {p : Predicate} {o : Operand} {s : State} (h : Resolvable o s) :
    EndsIn (exec (.vsp p o) s)
      { s.view with
        regs := regsAfterIndex o s
        ip := if predicateHolds p s.cc then addressOf (resolvedOperand o s) else s.ip } := by
  rw [exec_vsp]
  refine endsIn_withOperand h fun t view => ⟨_, rfl, ?_⟩
  have cc : t.cc = s.cc := congrArg View.cc view
  rw [cc]
  split
  · rw [State.view_setIp, view]
  · exact view

end Sys2Proof.Machine

namespace Sys2Proof.Proofs

open Sys2Proof Sys2Proof.Machine

/-- Settles O44: the operation writes the condition code alone, and reads the operand alone. -/
theorem vglTestsTheOperand : Obligations.VglTestsTheOperand := by
  refine ⟨selectedBy_of_decodeAs (c := .vgl) fun _ => rfl, fun a o s h => ?_⟩
  rw [exec_vgl]
  refine endsIn_withOperand h fun t view => ⟨_, rfl, ?_⟩
  rw [State.view_setCC, view]

/-- Settles O46: the predicate of the digit decides between the two instruction pointers. -/
theorem vspJumpsWhenThePredicateHolds : Obligations.VspJumpsWhenThePredicateHolds := by
  refine ⟨fun w f o p hf hop ho hp => ?selected, fun p o s h => ⟨fun taken => ?jumps, fun notTaken => ?continues⟩⟩
  case selected => rw [decodeCore_of_code (c := .vsp) hf hop, decodeAs_vsp ho hp]
  case jumps =>
    have ends := endsIn_vsp (p := p) h
    rwa [if_pos ((predicateHolds_iff p s.cc).mpr taken)] at ends
  case continues =>
    have ends := endsIn_vsp (p := p) h
    rwa [if_neg fun holds => notTaken ((predicateHolds_iff p s.cc).mp holds)] at ends

end Sys2Proof.Proofs
end

section
/-!
Subroutine call and return (`44_subroutine.md` R142, R143), on the memory stack of register 9.
-/

namespace Sys2Proof.Machine

/-- What SBR does with its resolved operand `v` in the state `t` the indexation stage left (R142). -/
def callOperation (v : Int) (t : State) : Result :=
  match fit (t.reg 9 - 1) with
  | none => .next (t.raise .arithmeticOverflow)
  | some sp => .next (((t.setReg 9 sp).memWrite sp (expandAddress t.ip)).setIp (addressOf v))

theorem exec_sbr (o : Operand) (s : State) : exec (.sbr o) s = withOperand o s callOperation := rfl

theorem callOperation_of_fits {t : State} (v : Int) (h : Fits (t.reg 9 - 1)) :
    callOperation v t =
      .next (((t.setReg 9 (t.reg 9 - 1)).memWrite (t.reg 9 - 1) (expandAddress t.ip)).setIp (addressOf v)) := by
  rw [callOperation, fit_of_fits h]

theorem callOperation_of_not_fits {t : State} (v : Int) (h : ¬Fits (t.reg 9 - 1)) :
    callOperation v t = .next (t.raise .arithmeticOverflow) := by
  rw [callOperation, fit_of_not_fits h]

theorem exec_ktg_of_fits {s : State} (h : Fits (s.reg 9 + 1)) :
    exec .ktg s = .next ((s.setReg 9 (s.reg 9 + 1)).setIp (addressOf (s.memRead (s.reg 9)))) := by
  have fitted : fit (s.reg Config.spCall + 1) = some (s.reg 9 + 1) := fit_of_fits h
  simp only [exec, execKtg, fitted]
  rfl

theorem exec_ktg_of_not_fits {s : State} (h : ¬Fits (s.reg 9 + 1)) :
    exec .ktg s = .next (s.raise .arithmeticOverflow) := by
  have overflow : fit (s.reg Config.spCall + 1) = none := fit_of_not_fits h
  simp only [exec, execKtg, overflow]

end Sys2Proof.Machine

namespace Sys2Proof.Proofs

open Sys2Proof Sys2Proof.Machine

/-- Settles O49: the stack pointer is the one the indexation stage left, while the cells and the return address are
those the instruction started with. -/
theorem sbrCalls : Obligations.SbrCalls := by
  refine ⟨selectedBy_of_decodeAs (c := .sbr) fun _ => rfl, fun o s h => ⟨fun fits => ?calls, fun overflow => ?faults⟩⟩
  case calls =>
    rw [exec_sbr]
    refine endsIn_withOperand h fun t view => ?_
    have regs : t.reg = regsAfterIndex o s := congrArg View.regs view
    have cells : t.mem.read = s.mem.read := congrArg View.cells view
    have ip : t.ip = s.ip := congrArg View.ip view
    rw [← regs] at fits ⊢
    refine ⟨_, callOperation_of_fits _ fits, ?_⟩
    rw [State.view_setIp, State.view_memWrite, State.view_setReg, State.setReg_mem, view, cells, ip]
  case faults =>
    rw [exec_sbr]
    refine endsIn_withOperand h fun t view => ?_
    have regs : t.reg = regsAfterIndex o s := congrArg View.regs view
    rw [← regs] at overflow
    refine ⟨_, callOperation_of_not_fits _ overflow, ?_⟩
    rw [State.view_raise, view]

/-- Settles O50: the opcode digits alone select the return, which reads its slot through the old stack pointer and
stores nothing. -/
theorem ktgReturns : Obligations.KtgReturns := by
  refine ⟨fun w f hf hop => ?selected, fun s => ⟨fun fits => ?returns, fun overflow => ?faults⟩⟩
  case selected =>
    have code : Opcode.ofCode f.op = some .ktg := hop ▸ Opcode.ofCode_code .ktg
    rw [decode_of_opcode hf code]
    rfl
  case returns =>
    refine ⟨_, exec_ktg_of_fits fits, ?_⟩
    rw [State.view_setIp, State.view_setReg, State.memRead]
  case faults => exact ⟨_, exec_ktg_of_not_fits overflow, State.view_raise s _⟩

end Sys2Proof.Proofs
end

section
/-!
Output and halt (`45_system_io.md` R148, R149, R151): how the cycle of an instruction without operand ends, and that a
stopped machine stays as it is (`40_cycle_decode_resolve.md` R100).
-/

namespace Sys2Proof.Machine

theorem exec_dru (s : State) : exec .dru s = .next (s.emit (.value (s.reg 0))) := rfl

theorem exec_nwl (s : State) : exec .nwl s = .next (s.emit .newline) := rfl

theorem exec_stp (s : State) : exec .stp s = .next s.halt := rfl

/-- A running machine executes the decoded instruction after the advance (R101). -/
theorem step_of_decode_ok {s : State} {i : Instr} (hs : s.Running) (h : decode s.fetch = .ok i) :
    step s = exec i s.advance := by
  simp [step, hs.not_stopped, h]

/-- The cycle of an opcode that is decoded without a look at the other digits (R104) ends as its instruction does. -/
theorem cycleOf_of_decodeAs {c : Opcode} {i : Instr} {change : View → View}
    (decodes : ∀ f, decodeAs c f = .ok i) (name : i.tableName = i)
    (ends : ∀ s : State, EndsIn (exec i s) (change s.view)) : CycleOf c.code change := by
  intro s f hs hf hop
  have code : Opcode.ofCode f.op = some c := hop ▸ Opcode.ofCode_code c
  have decoded : decode s.fetch = .ok i := by rw [decode_of_opcode hf code, decodes, Except.map, name]
  rw [step_of_decode_ok hs decoded]
  exact ends s.advance

theorem endsIn_dru (s : State) : EndsIn (exec .dru s) { s.view with out := s.out ++ [.value (s.reg 0)] } :=
  ⟨_, exec_dru s, State.view_emit s _⟩

theorem endsIn_nwl (s : State) : EndsIn (exec .nwl s) { s.view with out := s.out ++ [.newline] } :=
  ⟨_, exec_nwl s, State.view_emit s _⟩

theorem endsIn_stp (s : State) : EndsIn (exec .stp s) { s.view with halted := true } :=
  ⟨_, exec_stp s, State.view_halt s⟩

theorem State.halt_stopped (s : State) : s.halt.stopped = true := by
  rw [State.stopped, State.halt_halted, Bool.true_or]

theorem step_of_stopped {s : State} (h : s.stopped = true) : step s = .next s := by
  rw [step, if_pos h]

/-- A stopped machine performs no further cycle, however many are requested (R100). -/
theorem cycles_of_stopped {s : State} (h : s.stopped = true) (n : Nat) : cycles n s = s := by
  induction n with
  | zero => rfl
  | succ n ih =>
    rw [cycles, step_of_stopped h]
    exact ih

end Sys2Proof.Machine

namespace Sys2Proof.Proofs

open Sys2Proof Sys2Proof.Machine

/-- Settles O54: the state STP leaves is stopped, so every further request answers it unchanged. -/
theorem stpHaltsForGood : Obligations.StpHaltsForGood := by
  refine ⟨cycleOf_of_decodeAs (c := .stp) (fun _ => rfl) rfl endsIn_stp, endsIn_stp, fun s t n run => ?_⟩
  rw [exec_stp] at run
  cases run
  exact cycles_of_stopped s.halt_stopped n

/-- Settles O53: the cycle of either opcode is its instruction on the advanced state, whose registers and output are
those the machine started with. -/
theorem druAndNwlAppendTheirToken : Obligations.DruAndNwlAppendTheirToken :=
  ⟨cycleOf_of_decodeAs (c := .dru) (fun _ => rfl) rfl endsIn_dru,
    cycleOf_of_decodeAs (c := .nwl) (fun _ => rfl) rfl endsIn_nwl,
    fun s => ⟨endsIn_dru s, endsIn_nwl s⟩⟩

end Sys2Proof.Proofs
end

section
/-!
The round trip of the codec (`30_encoding.md` R52, R53, R56): packing and then splitting gives the fields back, with
the operand read signed, and splitting and then packing gives the ten digits back.
-/

namespace Sys2Proof

/-- A cell number, read signed, is still the address of that cell. -/
@[simp] theorem addressOf_expandAddress (u : Addr) : addressOf (expandAddress u) = u := by
  have same : expandAddress u % 10000 = (u.val : Int) % 10000 := by
    unfold expandAddress
    split <;> omega
  rw [(Machine.addressOf_eq_iff _ _).mpr same, Machine.addressOf_of_val]

/-- The operand field's range is where reading the address signed gives the number back. -/
theorem expandAddress_addressOf {n : Int} (h0 : -5000 ≤ n) (h1 : n ≤ 4999) : expandAddress (addressOf n) = n := by
  have value := Machine.addressOf_val n
  unfold expandAddress
  split <;> omega

/-- The digits of a packed word are the fields it was packed from; the operand comes back as its remainder, signed. -/
theorem fieldsOf_pack (f : Fields) :
    fieldsOf (pack f).toNat = { f with opnd := expandAddress (addressOf f.opnd) } := by
  have h1 := f.m1.isLt
  have h2 := f.m2.isLt
  have h3 := f.acc.isLt
  have h4 := f.idx.isLt
  have h5 := (addressOf f.opnd).isLt
  obtain ⟨u, number⟩ : ∃ u : Nat, pack f = u := Int.eq_ofNat_of_zero_le (by unfold pack; omega)
  have address : addressOf (u : Int) = addressOf f.opnd := by
    have whole := Machine.addressOf_val (u : Int)
    unfold pack at number
    exact Fin.ext (by omega)
  unfold pack at number
  have m1 : digitAt (10 ^ 7) u = f.m1 := Fin.ext (by simp only [digitAt]; omega)
  have m2 : digitAt (10 ^ 6) u = f.m2 := Fin.ext (by simp only [digitAt]; omega)
  have acc : digitAt (10 ^ 5) u = f.acc := Fin.ext (by simp only [digitAt]; omega)
  have idx : digitAt (10 ^ 4) u = f.idx := Fin.ext (by simp only [digitAt]; omega)
  have op : u / 10 ^ 8 = f.op := by omega
  rw [← pack] at number
  simp only [number, Int.toNat_natCast, fieldsOf, op, m1, m2, acc, idx, address]

theorem unpack_pack {f : Fields} (h : f.op ≤ 99) :
    unpack (pack f) = some { f with opnd := expandAddress (addressOf f.opnd) } := by
  obtain ⟨low, high, -⟩ := Laws.pack_shape f h
  rw [unpack_of_nonneg low high, fieldsOf_pack]

theorem unpack_pack_of_valid {f : Fields} (h : f.valid = true) : unpack (pack f) = some f := by
  simp only [Fields.valid, Bool.and_eq_true, decide_eq_true_eq] at h
  obtain ⟨⟨op, low⟩, high⟩ := h
  rw [unpack_pack op, expandAddress_addressOf low high]

/-- The ten digits of a number below 10^10 pack to the number. -/
theorem pack_fieldsOf (u : Nat) : pack (fieldsOf u) = u := by
  have address := Machine.addressOf_val (u : Int)
  simp only [pack, fieldsOf, digitAt, addressOf_expandAddress]
  omega

end Sys2Proof

namespace Sys2Proof.Proofs

open Sys2Proof Sys2Proof.Machine

/-- Settles O22: each law is a round trip between a number and its digits; a negative word goes by its complement. -/
theorem codecLaws : Obligations.CodecLaws := by
  refine ⟨fun f => unpack_pack_of_valid, fun w h0 h1 => ?word, fun n => addressOf_expandAddress _,
    fun n => expandAddress_addressOf, fun w h0 h1 => ?negative⟩
  case word => exact ⟨_, unpack_of_nonneg h0 h1, by rw [pack_fieldsOf]; omega⟩
  case negative => exact ⟨_, unpack_of_neg h0 h1, by rw [pack_fieldsOf]; omega⟩

end Sys2Proof.Proofs
end

section
/-!
The decoder on packed words (`30_encoding.md` R61, R67, R87 to R92): the fields an instruction is written with decode to
its expansion, and the table's name gives the instruction back.
-/

namespace Sys2Proof

/-! ### The digit tables, written and read -/

theorem Indexation.ofDigits_digit (x : Indexation) : Indexation.ofDigits x.digit x.regDigit = some x := by
  cases x <;> rfl

theorem Interp.ofDigit_digit (m : Interp) : Interp.ofDigit m.digit = some m := by
  cases m <;> rfl

theorem Predicate.ofDigit_digit (p : Predicate) : Predicate.ofDigit p.digit = some p := by
  cases p <;> rfl

/-- The predicate digits without a predicate are those outside 1 to 6 (R65). -/
theorem Predicate.ofDigit_eq_none_iff (d : Fin 10) : Predicate.ofDigit d = none ↔ d ∉ [1, 2, 3, 4, 5, 6] := by
  simp [Predicate.ofDigit, Predicate.digit, eq_comm (a := d)]

/-! ### The operand of a word -/

/-- The operand as its word holds it: reduced to four digits (R52, R90) and read signed (R53). -/
def Operand.reduced (o : Operand) : Operand := { o with disp := expandAddress (addressOf o.disp) }

theorem Operand.reduced_of_inRange {o : Operand} (h : o.inRange = true) : o.reduced = o := by
  simp only [Operand.inRange, Bool.and_eq_true, decide_eq_true_eq] at h
  rw [Operand.reduced, expandAddress_addressOf h.1 h.2]

/-- The modes of a written operand are legal, whatever stands in the operand field. -/
theorem decodeOperand_operandFields (c : Opcode) (acc : Fin 10) (o : Operand) :
    decodeOperand (operandFields c acc o) = .ok o := by
  simp only [decodeOperand, operandFields, Indexation.ofDigits_digit, Interp.ofDigit_digit]

theorem Opcode.code_le (c : Opcode) : c.code ≤ 99 := by
  cases c <;> decide

/-- The word of an operand-taking opcode holds the fields of the reduced operand. -/
theorem unpack_pack_operandFields (c : Opcode) (acc : Fin 10) (o : Operand) :
    unpack (pack (operandFields c acc o)) = some (operandFields c acc o.reduced) :=
  unpack_pack c.code_le

/-- A packed word of an operand-taking opcode is decoded as that opcode, with the reduced operand's fields. -/
theorem decodeCore_pack_operandFields (c : Opcode) (acc : Fin 10) (o : Operand) :
    decodeCore (pack (operandFields c acc o)) = decodeAs c (operandFields c acc o.reduced) :=
  decodeCore_of_code (unpack_pack_operandFields c acc o) rfl

/-- A packed word of a zero-operand opcode is decoded as that opcode. -/
theorem decodeCore_pack_zeroOperandFields (c : Opcode) :
    decodeCore (pack (zeroOperandFields c)) =
      decodeAs c { zeroOperandFields c with opnd := expandAddress (addressOf 9999) } :=
  decodeCore_of_code (unpack_pack c.code_le) rfl

/-! ### The round trip -/

/-- The decoder of an opcode that only adds the acc digit to the operand gives a written operand back. -/
theorem decodeCore_of_written {c : Opcode} {acc : Fin 10} {o : Operand} {mk : Reg → Operand → Instr}
    (h : ∀ f, decodeAs c f = (decodeOperand f).map (mk f.acc)) (ho : o.inRange = true) :
    decodeCore (pack (operandFields c acc o)) = .ok (mk acc o) := by
  rw [decodeCore_pack_operandFields, Operand.reduced_of_inRange ho, h, decodeOperand_operandFields]
  rfl

theorem decodeCore_of_written_vsp {p : Predicate} {o : Operand} (ho : o.inRange = true) :
    decodeCore (pack (operandFields .vsp p.digit o)) = .ok (.vsp p o) := by
  rw [decodeCore_pack_operandFields, Operand.reduced_of_inRange ho]
  exact decodeAs_vsp (decodeOperand_operandFields _ _ _) (Predicate.ofDigit_digit p)

/-- The hardware decodes an instruction's word to its expansion, when the operand field is in range. -/
theorem decodeCore_encode {i : Instr} (h : ∀ o, i.operand? = some o → o.inRange = true) :
    decodeCore (encode i) = .ok i.expand := by
  cases i with
  | hia a o | big a o | opt a o | aft a o | ver a o | del a o | mod a o | vgl a o =>
    exact decodeCore_of_written (fun _ => rfl) (h o rfl)
  | spr o => exact decodeCore_of_written (mk := fun _ => .spr) (fun _ => rfl) (h o rfl)
  | sbr o => exact decodeCore_of_written (mk := fun _ => .sbr) (fun _ => rfl) (h o rfl)
  | vsp p o => exact decodeCore_of_written_vsp (h o rfl)
  | ktg | dru | nwl | drs | nop | stp => exact decodeCore_pack_zeroOperandFields _
  | bst n | hst n => exact decodeCore_of_written (fun _ => rfl) (h _ rfl)

theorem Instr.operand_inRange {i : Instr} (h : i.wellFormed = true) {o : Operand} (ho : i.operand? = some o) :
    o.inRange = true := by
  cases i with
  | hia a o' | big a o' =>
    cases ho
    exact ((Bool.and_eq_true _ _).mp h).1
  | opt a o' | aft a o' | ver a o' | del a o' | mod a o' | vgl a o' | spr o' | vsp p o' | sbr o' =>
    cases ho
    exact h
  | ktg | dru | nwl | drs | nop | stp => cases ho
  | bst n | hst n =>
    cases ho
    decide

/-- A well-formed instruction is the table's name of its expansion (log 8). -/
theorem Instr.tableName_expand {i : Instr} (h : i.wellFormed = true) : i.expand.tableName = i := by
  cases i with
  | hia a o | big a o =>
    simp only [Instr.wellFormed, Bool.and_eq_true, decide_eq_true_eq] at h
    simp only [Instr.expand, Instr.tableName, if_neg h.2]
  | bst n | hst n => simp only [Instr.expand, Instr.tableName, if_true]
  | opt | aft | ver | del | mod | vgl | spr | vsp | sbr | ktg | dru | nwl | drs | nop | stp => rfl

end Sys2Proof

namespace Sys2Proof.Proofs

open Sys2Proof Sys2Proof.Machine

/-- Settles O24: the word decodes to the expansion, whose name in the table is the instruction. -/
theorem decodeUndoesEncode : Obligations.DecodeUndoesEncode := by
  intro i h
  rw [decode, decodeCore_encode fun _ => Instr.operand_inRange h, Except.map, Instr.tableName_expand h]

/-- Settles O27: the words are one number written in two ways, and the round trip reads both names. -/
theorem macroWordsAreTheirExpansions : Obligations.MacroWordsAreTheirExpansions := by
  intro n
  have push : encode (.bst n) =
      12 * 10 ^ 8 + 2 * 10 ^ 7 + 5 * 10 ^ 6 + (n.val : Int) * 10 ^ 5 + 8 * 10 ^ 4 + 0 := rfl
  have pop : encode (.hst n) =
      11 * 10 ^ 8 + 3 * 10 ^ 7 + 4 * 10 ^ 6 + (n.val : Int) * 10 ^ 5 + 8 * 10 ^ 4 + 0 := rfl
  have pushFields : (Instr.bst n).fields = (Instr.big n pushOperand).fields := rfl
  have popFields : (Instr.hst n).fields = (Instr.hia n popOperand).fields := rfl
  have pushOperands : ∀ o, (Instr.bst n).operand? = some o → o.inRange = true := fun _ => Instr.operand_inRange rfl
  have popOperands : ∀ o, (Instr.hst n).operand? = some o → o.inRange = true := fun _ => Instr.operand_inRange rfl
  exact ⟨by omega, congrArg pack pushFields, by omega, congrArg pack popFields,
    decodeCore_encode pushOperands, decodeUndoesEncode _ rfl, decodeCore_encode popOperands, decodeUndoesEncode _ rfl⟩

/-- Settles O25: seven closed words, whose digits the decoder computes. -/
theorem writtenOutWordsDecode : Obligations.WrittenOutWordsDecode := by
  refine ⟨?_, ?_, ?_, ?_, ?_, ?_, ?_⟩ <;> decide

end Sys2Proof.Proofs
end

section
/-!
The decoder read backwards (`30_encoding.md` R61, R67 to R71, `40_cycle_decode_resolve.md` R102 to R104): which words it
accepts, what an accepted word's instruction says of its fields, and which digits it does not look at.
-/

namespace Sys2Proof

/-! ### Opcodes -/

theorem Opcode.ofCode_eq_none_iff (n : Nat) :
    Opcode.ofCode n = none ↔ n ∉ [11, 12, 21, 22, 23, 24, 25, 31, 32, 33, 41, 42, 72, 73, 74, 98, 99] := by
  simp [Opcode.ofCode, Opcode.all, Opcode.code, eq_comm (a := n)]

theorem Opcode.code_of_ofCode {n : Nat} {c : Opcode} (h : Opcode.ofCode n = some c) : c.code = n :=
  beq_iff_eq.mp (List.find?_some (p := fun c : Opcode => c.code == n) h)

theorem Opcode.eq_of_code {c d : Opcode} (h : c.code = d.code) : c = d := by
  have same : some c = some d := by rw [← Opcode.ofCode_code c, h, Opcode.ofCode_code]
  exact Option.some.inj same

/-- The six function codes of the zero-operand opcodes (R60, R62). -/
theorem Opcode.ofCode_zeroOperand {n : Nat} (h : n ∈ [42, 72, 73, 74, 98, 99]) :
    ∃ c, Opcode.ofCode n = some c ∧ c.kind = .zeroOperand := by
  have table : ∀ n ∈ [42, 72, 73, 74, 98, 99],
      ∃ c ∈ Opcode.all, Opcode.ofCode n = some c ∧ c.kind = .zeroOperand := by decide
  obtain ⟨c, -, code, kind⟩ := table n h
  exact ⟨c, code, kind⟩

/-- A word that is none, or whose opcode is none of the 17, is rejected for its opcode (R102). -/
theorem decode_of_unknown {w : Int}
    (h : unpack w = none ∨ ∃ f, unpack w = some f ∧ Opcode.ofCode f.op = none) :
    decode w = .error .unknownOpcode := by
  rcases h with notWord | ⟨f, hf, unknown⟩
  · simp only [decode, decodeCore, notWord, Except.map]
  · simp only [decode, decodeCore, hf, unknown, Except.map]

/-! ### The operand -/

/-- The operand check: mode-2, then mode-1 (R103). -/
theorem decodeOperand_cases (f : Fields) :
    (f.m2 ∉ [1, 2, 3, 4, 5, 6] ∧ decodeOperand f = .error .unknownMode2) ∨
      (f.m2 ∈ [1, 2, 3, 4, 5, 6] ∧ f.m1 ∉ [1, 2, 3, 4] ∧ decodeOperand f = .error .unknownMode1) ∨
      (f.m2 ∈ [1, 2, 3, 4, 5, 6] ∧ f.m1 ∈ [1, 2, 3, 4] ∧ ∃ o, decodeOperand f = .ok o) := by
  by_cases h2 : f.m2 ∈ [1, 2, 3, 4, 5, 6]
  · by_cases h1 : f.m1 ∈ [1, 2, 3, 4]
    · obtain ⟨x, hx⟩ := Option.ne_none_iff_exists'.mp
        fun missing => (Indexation.ofDigits_eq_none_iff f.m2 f.idx).mp missing h2
      obtain ⟨m, hm⟩ := Option.ne_none_iff_exists'.mp fun missing => (Interp.ofDigit_eq_none_iff f.m1).mp missing h1
      exact .inr (.inr ⟨h2, h1, ⟨m, x, f.opnd⟩, by simp only [decodeOperand, hx, hm]⟩)
    · exact .inr (.inl ⟨h2, h1, decodeOperand_of_illegal_m1 h2 h1⟩)
  · exact .inl ⟨h2, decodeOperand_of_illegal_m2 h2⟩

theorem decodeOperand_disp {f : Fields} {o : Operand} (h : decodeOperand f = .ok o) : o.disp = f.opnd := by
  unfold decodeOperand at h
  split at h
  · cases h
  · split at h
    · cases h
    · cases h
      rfl

/-- The operand field of every word lies in `Val`, being four digits read signed (R53). -/
theorem unpack_opnd_fits {w : Int} {f : Fields} (h : unpack w = some f) : Machine.Fits f.opnd := by
  unfold unpack at h
  split at h
  · cases h
  · split at h <;> cases h <;> exact Machine.expandAddress_fits _

/-! ### The instruction of an opcode -/

theorem exists_of_map_eq_ok {ε α β : Type} {r : Except ε α} {g : α → β} {b : β} (h : r.map g = .ok b) :
    ∃ a, r = .ok a ∧ g a = b := by
  cases r with
  | error e => cases h
  | ok a =>
    cases h
    exact ⟨a, rfl, rfl⟩

/-- The instruction decoded for an opcode carries that opcode, and its operand is the decoded one. -/
theorem decodeAs_ok {c : Opcode} {f : Fields} {i : Instr} (h : decodeAs c f = .ok i) :
    i.opcode = c ∧ ∀ o, i.operand? = some o → decodeOperand f = .ok o := by
  cases c with
  | ktg | dru | nwl | drs | nop | stp =>
    cases h
    exact ⟨rfl, fun o none => nomatch none⟩
  | hia | big | opt | aft | ver | del | mod | vgl | spr | sbr =>
    obtain ⟨o, operand, rfl⟩ := exists_of_map_eq_ok h
    exact ⟨rfl, fun o' same => Option.some.inj same ▸ operand⟩
  | vsp =>
    cases operand : decodeOperand f with
    | error e => simp only [decodeAs, operand, Except.bind, reduceCtorEq] at h
    | ok o =>
      simp only [decodeAs, operand, Except.bind, decodePredicate] at h
      split at h
      · cases h
      · cases h
        exact ⟨rfl, fun o' same => Option.some.inj same ▸ rfl⟩

theorem decodeAs_vsp_of_illegal_acc {f : Fields} {o : Operand} (h : decodeOperand f = .ok o)
    (illegal : f.acc ∉ [1, 2, 3, 4, 5, 6]) : decodeAs .vsp f = .error .badPredicate := by
  have missing : Predicate.ofDigit f.acc = none := (Predicate.ofDigit_eq_none_iff f.acc).mpr illegal
  simp only [decodeAs, h, Except.bind, decodePredicate, missing]

/-- An operand-taking opcode with legal modes decodes, but for a conditional jump with a bad predicate digit (R103). -/
theorem decodeAs_of_operand {c : Opcode} {f : Fields} {o : Operand} (h : decodeOperand f = .ok o) :
    (∃ i, decodeAs c f = .ok i) ∨
      (c = .vsp ∧ f.acc ∉ [1, 2, 3, 4, 5, 6] ∧ decodeAs c f = .error .badPredicate) := by
  cases c with
  | hia | big | opt | aft | ver | del | mod | vgl | spr | sbr =>
    exact .inl ⟨_, by rw [decodeAs, h, Except.map]⟩
  | ktg | dru | nwl | drs | nop | stp => exact .inl ⟨_, rfl⟩
  | vsp =>
    by_cases legal : f.acc ∈ [1, 2, 3, 4, 5, 6]
    · obtain ⟨p, predicate⟩ := Option.ne_none_iff_exists'.mp
        fun missing => (Predicate.ofDigit_eq_none_iff f.acc).mp missing legal
      exact .inl ⟨_, decodeAs_vsp h predicate⟩
    · exact .inr ⟨rfl, legal, decodeAs_vsp_of_illegal_acc h legal⟩

/-- Once the opcode is known, no rejection names it. -/
theorem decodeAs_ne_unknownOpcode (c : Opcode) (f : Fields) : decodeAs c f ≠ .error .unknownOpcode := by
  intro rejected
  by_cases zero : c.kind = .zeroOperand
  · cases c <;> cases zero <;> cases rejected
  · rcases decodeOperand_cases f with ⟨-, bad⟩ | ⟨-, -, bad⟩ | ⟨-, -, o, ok⟩
    · cases (decodeAs_of_operand_error zero bad).symm.trans rejected
    · cases (decodeAs_of_operand_error zero bad).symm.trans rejected
    · rcases decodeAs_of_operand (c := c) ok with ⟨i, decoded⟩ | ⟨-, -, bad⟩
      · cases decoded.symm.trans rejected
      · cases bad.symm.trans rejected

/-- The decoder sees, beside the opcode, the operand's digits and the acc digit. -/
theorem decodeAs_congr {c : Opcode} {f f' : Fields} (operand : decodeOperand f = decodeOperand f')
    (acc : f.acc = f'.acc) : decodeAs c f = decodeAs c f' := by
  have predicate : decodePredicate f = decodePredicate f' := by
    funext o
    rw [decodePredicate, decodePredicate, acc]
  cases c with
  | hia | big | opt | aft | ver | del | mod | vgl | spr | sbr | vsp =>
    simp only [decodeAs, operand, acc, predicate]
  | ktg | dru | nwl | drs | nop | stp => rfl

/-- A zero-operand opcode decodes to the same instruction whatever the low digits (R67 (a)). -/
theorem decodeAs_zeroOperand {c : Opcode} (h : c.kind = .zeroOperand) :
    ∃ i, i.operand? = none ∧ ∀ f, decodeAs c f = .ok i := by
  cases c with
  | ktg | dru | nwl | drs | nop | stp => exact ⟨_, rfl, fun _ => rfl⟩
  | hia | big | opt | aft | ver | del | mod | vgl | spr | sbr | vsp => cases h

/-! ### The whole word -/

/-- Two words with one opcode decode alike when the decoder of that opcode sees no difference. -/
theorem decode_congr_fields {w w' : Int} {f f' : Fields} (hf : unpack w = some f) (hf' : unpack w' = some f')
    (op : f.op = f'.op) (same : ∀ c, c.code = f.op → decodeAs c f = decodeAs c f') : decode w = decode w' := by
  cases code : Opcode.ofCode f.op with
  | none =>
    rw [decode_of_unknown (.inr ⟨f, hf, code⟩), decode_of_unknown (.inr ⟨f', hf', op ▸ code⟩)]
  | some c => rw [decode_of_opcode hf code, decode_of_opcode hf' (op ▸ code), same c (Opcode.code_of_ofCode code)]

theorem Instr.opcode_tableName (i : Instr) : i.tableName.opcode = i.opcode := by
  cases i with
  | hia a o | big a o =>
    simp only [Instr.tableName]
    split <;> rfl
  | opt | aft | ver | del | mod | vgl | spr | vsp | sbr | ktg | dru | nwl | drs | nop | stp | bst | hst => rfl

theorem Instr.operand?_tableName (i : Instr) : i.tableName.operand? = i.operand? := by
  cases i with
  | hia a o | big a o =>
    simp only [Instr.tableName]
    split
    · next same => rw [same]; rfl
    · rfl
  | opt | aft | ver | del | mod | vgl | spr | vsp | sbr | ktg | dru | nwl | drs | nop | stp | bst | hst => rfl

/-- What an accepted word's instruction says of its fields. -/
theorem decode_ok {w : Int} {i : Instr} (h : decode w = .ok i) :
    ∃ f, unpack w = some f ∧ i.opcode.code = f.op ∧ ∀ o, i.operand? = some o → decodeOperand f = .ok o := by
  cases hf : unpack w with
  | none => cases (decode_of_unknown (.inl hf)).symm.trans h
  | some f =>
    cases code : Opcode.ofCode f.op with
    | none => cases (decode_of_unknown (.inr ⟨f, hf, code⟩)).symm.trans h
    | some c =>
      rw [decode_of_opcode hf code] at h
      obtain ⟨j, decoded, rfl⟩ := exists_of_map_eq_ok h
      obtain ⟨opcode, operand⟩ := decodeAs_ok decoded
      rw [Instr.opcode_tableName, Instr.operand?_tableName, opcode]
      exact ⟨f, rfl, Opcode.code_of_ofCode code, operand⟩

/-- The operand field of an accepted word's instruction lies in `Val`. -/
theorem decode_disp_fits {w : Int} {i : Instr} {o : Operand} (h : decode w = .ok i) (ho : i.operand? = some o) :
    Machine.Fits o.disp := by
  obtain ⟨f, hf, -, operand⟩ := decode_ok h
  rw [decodeOperand_disp (operand o ho)]
  exact unpack_opnd_fits hf

end Sys2Proof

namespace Sys2Proof.Machine

/-- A rejected word ends the cycle with its fault, `ip` advanced and nothing else changed (R102, R103). -/
theorem endsIn_of_decode_error {s : State} {e : DecodeError} (hs : s.Running) (h : decode s.fetch = .error e) :
    EndsIn (step s) { s.view with ip := addressOf ((s.ip.val : Int) + 1), fault := some (Fault.ofDecode e) } :=
  ⟨_, step_of_decode_error hs h, rfl⟩

end Sys2Proof.Machine

namespace Sys2Proof.Proofs

open Sys2Proof Sys2Proof.Machine

/-- Settles O7: either reason makes the decoder reject the opcode. -/
theorem unknownOpcodeEndsTheCycle : Obligations.UnknownOpcodeEndsTheCycle := by
  intro s hs unknown
  refine endsIn_of_decode_error hs (decode_of_unknown (unknown.imp_right fun ⟨f, hf, hop⟩ => ⟨f, hf, ?_⟩))
  exact (Opcode.ofCode_eq_none_iff f.op).mpr hop

/-- Settles O8: the operand check takes the first two digits in order, and the predicate is looked at after it. -/
theorem modeDigitsAreCheckedInOrder : Obligations.ModeDigitsAreCheckedInOrder := by
  intro s f hs hf hop
  obtain ⟨c, code, kind⟩ := Opcode.ofCode_operandTaking hop
  have operand (h2 : f.m2 ∈ [1, 2, 3, 4, 5, 6]) (h1 : f.m1 ∈ [1, 2, 3, 4]) : ∃ o, decodeOperand f = .ok o := by
    rcases decodeOperand_cases f with ⟨bad, -⟩ | ⟨-, bad, -⟩ | ⟨-, -, ok⟩
    · exact absurd h2 bad
    · exact absurd h1 bad
    · exact ok
  refine ⟨fun h2 => ?mode2, fun h2 h1 => ?mode1, fun h2 h1 h33 illegal => ?predicate, fun h2 h1 legal => ?decodes⟩
  case mode2 =>
    exact endsIn_of_decode_error hs (decode_of_operand_error hf hop (decodeOperand_of_illegal_m2 h2))
  case mode1 =>
    exact endsIn_of_decode_error hs (decode_of_operand_error hf hop (decodeOperand_of_illegal_m1 h2 h1))
  case predicate =>
    obtain ⟨o, ok⟩ := operand h2 h1
    obtain rfl : c = .vsp := Opcode.eq_of_code ((Opcode.code_of_ofCode code).trans h33)
    have bad : decodeAs .vsp f = .error .badPredicate := decodeAs_vsp_of_illegal_acc ok illegal
    exact endsIn_of_decode_error hs (by rw [decode_of_opcode hf code, bad, Except.map])
  case decodes =>
    obtain ⟨o, ok⟩ := operand h2 h1
    rcases decodeAs_of_operand (c := c) ok with ⟨i, decoded⟩ | ⟨rfl, illegal, -⟩
    · exact ⟨i.tableName, by rw [decode_of_opcode hf code, decoded, Except.map]⟩
    · exact absurd (legal (Opcode.code_of_ofCode code).symm) illegal

/-- Settles O9: the decoder names the opcode exactly when no opcode has the code; reset memory holds only zeros. -/
theorem opcodeSetIsClosed : Obligations.OpcodeSetIsClosed := by
  refine ⟨fun w f hf => ?rejected, fun s hs h => endsIn_of_decode_error hs h, by decide, fun n => rfl⟩
  rw [← Opcode.ofCode_eq_none_iff]
  refine ⟨fun h => ?_, fun unknown => decode_of_unknown (.inr ⟨f, hf, unknown⟩)⟩
  by_contra known
  obtain ⟨c, code⟩ := Option.ne_none_iff_exists'.mp known
  rw [decode_of_opcode hf code] at h
  cases decoded : decodeAs c f with
  | ok i => rw [decoded] at h; cases h
  | error e =>
    rw [decoded] at h
    cases h
    exact decodeAs_ne_unknownOpcode c f decoded

/-- Settles O11: the decoder dispatches on the opcode digits, and neither it nor the naming changes the opcode. -/
theorem opcodeDigitsSelectTheOperation : Obligations.OpcodeDigitsSelectTheOperation := by
  intro w f i hf h
  obtain ⟨f', hf', opcode, -⟩ := decode_ok h
  rwa [Option.some.inj (hf.symm.trans hf')]

/-- Settles O26: no ignored digit reaches the decoder of the opcode, or, for VGL, the operation. -/
theorem ignoredDigitsSelectNothing : Obligations.IgnoredDigitsSelectNothing := by
  refine ⟨fun w w' f f' hf hf' op zero => ?zeroOperand, fun w w' f d hf hf' op => ?acc,
    fun w w' f d hf hf' m2 => ?idx, fun a b o s => rfl⟩
  case zeroOperand =>
    obtain ⟨c, code, kind⟩ := Opcode.ofCode_zeroOperand zero
    obtain ⟨i, noOperand, decoded⟩ := decodeAs_zeroOperand kind
    rw [decode_of_opcode hf code, decode_of_opcode hf' (op ▸ code), decoded, decoded]
    exact ⟨rfl, i.tableName, rfl, by rw [Instr.operand?_tableName, noOperand]⟩
  case acc =>
    refine decode_congr_fields hf hf' rfl fun c hc => ?_
    rcases op with jump | call
    · obtain rfl : c = .spr := Opcode.eq_of_code (hc.trans jump)
      rfl
    · obtain rfl : c = .sbr := Opcode.eq_of_code (hc.trans call)
      rfl
  case idx =>
    have operand : decodeOperand f = decodeOperand { f with idx := d } := by
      simp only [decodeOperand, m2]
      rfl
    exact decode_congr_fields hf hf' rfl fun c _ => decodeAs_congr operand rfl

end Sys2Proof.Proofs
end

section
/-!
Push and pop (`41_load_store.md` R122, R123): what they do, and that they do what their expansions do.
-/

namespace Sys2Proof.Machine

theorem exec_bst_of_fits {n : Reg} {s : State} (h : Fits (s.reg 8 - 1)) :
    exec (.bst n) s =
      .next (((s.setReg 8 (s.reg 8 - 1)).memWrite (s.reg 8 - 1) ((s.setReg 8 (s.reg 8 - 1)).reg n)).setCC
        (sign ((s.setReg 8 (s.reg 8 - 1)).reg n))) := by
  have fitted : fit (s.reg Config.spData - 1) = some (s.reg 8 - 1) := fit_of_fits h
  simp only [exec, execBst, fitted]
  rfl

theorem exec_bst_of_not_fits {n : Reg} {s : State} (h : ¬Fits (s.reg 8 - 1)) :
    exec (.bst n) s = .next (s.raise .arithmeticOverflow) := by
  have overflow : fit (s.reg Config.spData - 1) = none := fit_of_not_fits h
  simp only [exec, execBst, overflow]

theorem exec_hst_of_fits {n : Reg} {s : State} (h : Fits (s.reg 8 + 1)) :
    exec (.hst n) s =
      .next (((s.setReg 8 (s.reg 8 + 1)).setReg n (s.memRead (s.reg 8))).setCC (sign (s.memRead (s.reg 8)))) := by
  have fitted : fit (s.reg Config.spData + 1) = some (s.reg 8 + 1) := fit_of_fits h
  simp only [exec, execHst, fitted]
  rfl

theorem exec_hst_of_not_fits {n : Reg} {s : State} (h : ¬Fits (s.reg 8 + 1)) :
    exec (.hst n) s = .next (s.raise .arithmeticOverflow) := by
  have overflow : fit (s.reg Config.spData + 1) = none := fit_of_not_fits h
  simp only [exec, execHst, overflow]

theorem resolve_pushOperand_of_fits {s : State} (h : Fits (s.reg 8 - 1)) :
    resolve pushOperand s = .ok (((addressOf (s.reg 8 - 1)).val : Int), s.setReg 8 (s.reg 8 - 1)) := by
  have stage : indexStage 0 (.preDec 8) s = .ok (0 + (s.reg 8 - 1), s.setReg 8 (s.reg 8 - 1)) :=
    stepThenAdd_resolves h (by rwa [← Int.sub_eq_add_neg, Int.zero_add])
  rw [Int.zero_add] at stage
  simp only [resolve, pushOperand, Config.spData, stage, valueStage]

theorem resolve_pushOperand_of_not_fits {s : State} (h : ¬Fits (s.reg 8 - 1)) :
    resolve pushOperand s = .error (s.raise .arithmeticOverflow) := by
  have overflow : stepIndex 8 (-1) s = .error (s.raise .arithmeticOverflow) := by
    rw [stepIndex, ← Int.sub_eq_add_neg, fit_of_not_fits h]
  simp only [resolve, pushOperand, Config.spData, indexStage, stepThenAdd, overflow]

theorem resolve_popOperand_of_fits {s : State} (h0 : Fits (s.reg 8)) (h : Fits (s.reg 8 + 1)) :
    resolve popOperand s = .ok (s.memRead (s.reg 8), s.setReg 8 (s.reg 8 + 1)) := by
  have stage : indexStage 0 (.postInc 8) s = .ok (0 + s.reg 8, s.setReg 8 (s.reg 8 + 1)) :=
    addThenStep_resolves (by rwa [Int.zero_add]) h
  rw [Int.zero_add] at stage
  simp only [resolve, popOperand, Config.spData, stage, valueStage, State.setReg_memRead]

theorem resolve_popOperand_of_not_fits {s : State} (h : ¬Fits (s.reg 8 + 1)) :
    resolve popOperand s = .error (s.raise .arithmeticOverflow) := by
  have overflow : indexStage 0 (.postInc 8) s = .error (s.raise .arithmeticOverflow) :=
    addThenStep_overflows fun both => h both.2
  simp only [resolve, popOperand, Config.spData, overflow]

/-- Storing at `address_of(v)` through that address's number is storing at `v`. -/
theorem State.memWrite_addressOf (s : State) (n v : Int) :
    s.memWrite (((addressOf n).val : Nat) : Int) v = s.memWrite n v := by
  rw [State.memWrite, State.memWrite, addressOf_of_val]

theorem exec_bst_eq_exec_big (n : Reg) (s : State) : exec (.bst n) s = exec (.big n pushOperand) s := by
  by_cases h : Fits (s.reg 8 - 1)
  · rw [exec_bst_of_fits h, exec_big]
    simp only [withOperand, resolve_pushOperand_of_fits h, State.memWrite_addressOf]
  · rw [exec_bst_of_not_fits h, exec_big]
    simp only [withOperand, resolve_pushOperand_of_not_fits h]

/-- Pop adds nothing to `x[8]` before it reads through it, where its expansion adds 0 and checks the range. -/
theorem exec_hst_eq_exec_hia {s : State} (n : Reg) (h0 : Fits (s.reg 8)) :
    exec (.hst n) s = exec (.hia n popOperand) s := by
  by_cases h : Fits (s.reg 8 + 1)
  · rw [exec_hst_of_fits h, exec_hia]
    simp only [withOperand, resolve_popOperand_of_fits h0 h]
  · rw [exec_hst_of_not_fits h, exec_hia]
    simp only [withOperand, resolve_popOperand_of_not_fits h]

/-- The name the table gives a core instruction changes nothing it does (log 8). -/
theorem exec_tableName {s : State} (i : Instr) (h0 : Fits (s.reg 8)) : exec i.tableName s = exec i s := by
  cases i with
  | hia a o =>
    simp only [Instr.tableName]
    split
    · next pop => rw [pop, exec_hst_eq_exec_hia a h0]
    · rfl
  | big a o =>
    simp only [Instr.tableName]
    split
    · next push => rw [push, exec_bst_eq_exec_big]
    · rfl
  | opt | aft | ver | del | mod | vgl | spr | vsp | sbr | ktg | dru | nwl | drs | nop | stp | bst | hst => rfl

end Sys2Proof.Machine

namespace Sys2Proof.Proofs

open Sys2Proof Sys2Proof.Machine

/-- Settles O28: both sides decide on the same change of `x[8]` and then do the same. -/
theorem macrosRunAsTheirExpansions : Obligations.MacrosRunAsTheirExpansions :=
  fun n s => ⟨exec_bst_eq_exec_big n s, exec_hst_eq_exec_hia n⟩

/-- Settles O29: the two decoders differ by the table's name, and register 8 of a valid state is in `Val`. -/
theorem namingTheMacrosChangesNoCycle : Obligations.NamingTheMacrosChangesNoCycle := by
  intro w i j s valid hi hj
  rw [decode, hj] at hi
  cases hi
  exact exec_tableName j (valid.regs_fit 8)

/-- Settles O36: the register stored is read after the decrement, also when it is register 8. -/
theorem bstPushesTheRegister : Obligations.BstPushesTheRegister := by
  intro n s
  refine ⟨fun fits => ⟨_, exec_bst_of_fits fits, ?_⟩, fun overflow => ⟨_, exec_bst_of_not_fits overflow, rfl⟩⟩
  rw [State.view_setCC, State.view_memWrite, State.view_setReg, State.setReg_reg, State.setReg_mem]

/-- Settles O37: the cell is read through the old stack pointer, and the target is written after the increment. -/
theorem hstPopsIntoTheRegister : Obligations.HstPopsIntoTheRegister := by
  intro n s
  refine ⟨fun fits => ⟨_, exec_hst_of_fits fits, ?_⟩, fun overflow => ⟨_, exec_hst_of_not_fits overflow, rfl⟩⟩
  rw [State.view_setCC, State.view_setReg, State.view_setReg, State.setReg_reg, State.memRead]

end Sys2Proof.Proofs
end

section
/-!
What an instruction can do, said once (`40_cycle_decode_resolve.md` R101, R109): `Ends` lists the ends of `exec` in the
terms of the tables of Safety.lean, and the frame statements read them off.
-/

namespace Sys2Proof.Machine

/-! ### The start of the operation -/

/-- The ranges an instruction's values are computed from: its operand field, the registers and the cells. -/
structure InRange (i : Instr) (s : State) : Prop where
  disp_fits : ∀ o, i.operand? = some o → Fits o.disp
  regs_fit : ∀ b, Fits (s.reg b)
  cells_fit : ∀ a, Fits (s.mem.read a)

/-- The operation of `i` may start in `u`: at most one register, of those `i` may write, has changed, to a value that
fits. -/
structure Indexed (i : Instr) (s u : State) : Prop where
  effect : IndexEffect s u
  others : ∀ b, b ∉ mayWrite i → u.reg b = s.reg b

theorem Indexed.refl (i : Instr) (s : State) : Indexed i s s := ⟨.inl rfl, fun _ _ => rfl⟩

theorem setReg_reg_of_not_mem {i : Instr} {k b : Reg} (s : State) (v : Int) (target : k ∈ mayWrite i)
    (h : b ∉ mayWrite i) : (s.setReg k v).reg b = s.reg b :=
  State.setReg_reg_other s v fun same => h (same ▸ target)

theorem Indexed.setReg {i : Instr} {s : State} {k : Reg} {v : Int} (target : k ∈ mayWrite i) (range : Fits v) :
    Indexed i s (s.setReg k v) :=
  ⟨.inr ⟨k, v, range, rfl⟩, fun _ h => setReg_reg_of_not_mem s v target h⟩

/-- The index register of the operand is a register the instruction may write. -/
theorem indexRegister_mem_mayWrite {i : Instr} {o : Operand} {k : Reg} {d : Int} (ho : i.operand? = some o)
    (hk : indexChange o.index = some (k, d)) : k ∈ mayWrite i := by
  simp only [mayWrite, ho, hk, List.mem_append, List.mem_singleton, true_or]

theorem regsAfterIndex_of_ne {o : Operand} {b : Reg} (s : State)
    (h : ∀ k d, indexChange o.index = some (k, d) → b ≠ k) : regsAfterIndex o s b = s.reg b := by
  obtain ⟨m, x, d⟩ := o
  cases x with
  | none | plain => rfl
  | preInc k | postInc k | preDec k | postDec k => exact Function.update_of_ne (h k _ rfl) _ _

theorem regsAtIndexFault_of_ne {o : Operand} {b : Reg} (s : State)
    (h : ∀ k d, indexChange o.index = some (k, d) → b ≠ k) : regsAtIndexFault o s b = s.reg b := by
  obtain ⟨m, x, d⟩ := o
  cases x with
  | none | plain | postInc | postDec => rfl
  | preInc k | preDec k =>
    simp only [regsAtIndexFault]
    split
    · exact Function.update_of_ne (h k _ rfl) _ _
    · rfl

/-- A resolved operand is the value stage's, in a state the indexation stage left. -/
theorem resolve_ok {o : Operand} {s u : State} {v : Int} (h : resolve o s = .ok (v, u)) :
    IndexEffect s u ∧ ∃ a, indexStage o.disp o.index s = .ok (a, u) ∧ v = valueStage o.interp a u := by
  rcases resolve_cases o s with ⟨a, t, effect, stage, value⟩ | ⟨t, -, -, fault⟩
  · obtain ⟨same, rfl⟩ := Prod.mk.inj (Except.ok.inj (value.symm.trans h))
    exact ⟨effect, a, stage, same.symm⟩
  · cases fault.symm.trans h

theorem resolve_error {o : Operand} {s t : State} (h : resolve o s = .error t) : IndexFault s t := by
  rcases resolve_cases o s with ⟨a, u, -, -, value⟩ | ⟨u, indexFault, -, fault⟩
  · cases value.symm.trans h
  · cases fault.symm.trans h
    exact indexFault

theorem resolvedOperand_fits {o : Operand} {s : State} (h : Resolvable o s) (disp : Fits o.disp)
    (cells : ∀ a, Fits (s.mem.read a)) : Fits (resolvedOperand o s) := by
  obtain ⟨u, resolved, view⟩ := resolve_of_resolvable h
  obtain ⟨-, a, stage, value⟩ := resolve_ok resolved
  have kept : u.mem.read = s.mem.read := congrArg View.cells view
  rw [value]
  exact valueStage_fits _ (indexStage_fits disp stage) (kept ▸ cells)

/-! ### The ends of an instruction -/

/-- What `exec i s` can end in. A `u` is the state the operation started in. -/
inductive Ends (i : Instr) (s : State) : State → Prop where
  /-- a fault, with nothing written but index registers -/
  | faults {u f} (start : Indexed i s u) : Ends i s (u.raise f)
  /-- a value in a register, and a condition code -/
  | computes {u a v c} (start : Indexed i s u) (target : a ∈ mayWrite i) (flag : writesCC i = true)
      (range : InRange i s → Fits v) : Ends i s ((u.setReg a v).setCC c)
  /-- a register stored, and a condition code -/
  | stores {u n a c} (start : Indexed i s u) (cell : storesTo i s = some (addressOf n)) (flag : writesCC i = true) :
      Ends i s ((u.memWrite n (u.reg a)).setCC c)
  /-- a condition code alone -/
  | tests {u c} (start : Indexed i s u) (flag : writesCC i = true) : Ends i s (u.setCC c)
  /-- a jump; a return is one from a state whose register 9 has changed -/
  | jumps {u t} (start : Indexed i s u) : Ends i s (u.setIp t)
  /-- nothing -/
  | passes {u} (start : Indexed i s u) : Ends i s u
  /-- a return address stored, and a jump -/
  | calls {u v t} (start : Indexed i s u) (target : 9 ∈ mayWrite i) (cell : storesTo i s = some (addressOf v))
      (range : Fits v) : Ends i s (((u.setReg 9 v).memWrite v (expandAddress u.ip)).setIp t)
  /-- a token of output -/
  | emits {t} (op : i = .dru ∨ i = .nwl) (range : InRange i s → ∀ n, t = .value n → Fits n) : Ends i s (s.emit t)
  /-- the halt -/
  | halts (op : i = .stp) : Ends i s s.halt

/-- The answer is a next state that is one of the ends of `i`. -/
def Answers (i : Instr) (s : State) (r : Result) : Prop := ∃ t, r = .next t ∧ Ends i s t

theorem answers_withOperand {i : Instr} {o : Operand} {s : State} {operation : Int → State → Result}
    (ho : i.operand? = some o)
    (run : ∀ u, Indexed i s u → u.view = { s.view with regs := regsAfterIndex o s } →
      (InRange i s → Fits (resolvedOperand o s)) → Answers i s (operation (resolvedOperand o s) u)) :
    Answers i s (withOperand o s operation) := by
  have indexed {b k : Reg} {d : Int} (hb : b ∉ mayWrite i) (hk : indexChange o.index = some (k, d)) : b ≠ k :=
    fun same => hb (same ▸ indexRegister_mem_mayWrite ho hk)
  by_cases h : Resolvable o s
  · obtain ⟨u, resolved, view⟩ := resolve_of_resolvable h
    obtain ⟨effect, -⟩ := resolve_ok resolved
    have regs : u.reg = regsAfterIndex o s := congrArg View.regs view
    have start : Indexed i s u :=
      ⟨effect, fun b hb => (congrFun regs b).trans (regsAfterIndex_of_ne s fun _ _ => indexed hb)⟩
    rw [withOperand, resolved]
    exact run u start view fun ranges => resolvedOperand_fits h (ranges.disp_fits o ho) ranges.cells_fit
  · obtain ⟨t, fault, view⟩ := resolve_of_not_resolvable h
    obtain ⟨u, effect, rfl⟩ := resolve_error fault
    have regs : u.reg = regsAtIndexFault o s := congrArg View.regs view
    have start : Indexed i s u :=
      ⟨effect, fun b hb => (congrFun regs b).trans (regsAtIndexFault_of_ne s fun _ _ => indexed hb)⟩
    rw [withOperand, fault]
    exact ⟨_, rfl, .faults start⟩

/-- An arithmetic instruction writes a result that fits, or faults. -/
theorem answers_accumulate {i : Instr} {s u : State} {a : Reg} {v : Int} {result : Except Fault Int}
    (start : Indexed i s u) (target : a ∈ mayWrite i) (flag : writesCC i = true)
    (range : InRange i s → ∀ y, result = .ok y → Fits y) : Answers i s (accumulate a v result u) := by
  rcases accumulate_cases a v result u with ⟨y, ok, run⟩ | ⟨f, -, run⟩
  · exact ⟨_, run, .computes start target flag fun ranges => range ranges y ok⟩
  · exact ⟨_, run, .faults start⟩

theorem fits_of_fitted {v y : Int} (h : fitted v = .ok y) : Fits y := by
  rcases fitted_cases v with ⟨fits, ok⟩ | ⟨-, error⟩
  · cases ok.symm.trans h
    exact fits
  · cases error.symm.trans h

theorem fits_of_quotientOf {x v y : Int} (h : quotientOf x v = .ok y) : Fits y := by
  unfold quotientOf at h
  split at h
  · cases h
  · exact fits_of_fitted h

/-- The remainder of a dividend that is not positive is not positive. -/
theorem tmod_nonpos {x : Int} (v : Int) (h : x ≤ 0) : Int.tmod x v ≤ 0 := by
  have mirrored := Int.tmod_nonneg v (show 0 ≤ -x by omega)
  rw [Int.neg_tmod] at mirrored
  omega

/-- A remainder is no further from 0 than the dividend, and on its side. -/
theorem fits_tmod {x : Int} (v : Int) (h : Fits x) : Fits (Int.tmod x v) := by
  have size : (Int.tmod x v).natAbs ≤ x.natAbs := by
    rw [Int.natAbs_tmod]
    exact Nat.mod_le _ _
  have above := Int.tmod_nonneg (a := x) v
  have below := tmod_nonpos (x := x) v
  simp only [Fits, Config.valMin, Config.valMax] at *
  omega

theorem fits_of_remainderOf {x v y : Int} (hx : Fits x) (h : remainderOf x v = .ok y) : Fits y := by
  unfold remainderOf at h
  split at h
  · cases h
  · split at h
    · cases h
    · cases h
      exact fits_tmod v hx

theorem exec_del (a : Reg) (o : Operand) (s : State) :
    exec (.del a o) s = withOperand o s fun v t => accumulate a v (quotientOf (t.reg a) v) t := rfl

theorem exec_mod (a : Reg) (o : Operand) (s : State) :
    exec (.mod a o) s = withOperand o s fun v t => accumulate a v (remainderOf (t.reg a) v) t := rfl

theorem exec_spr (o : Operand) (s : State) :
    exec (.spr o) s = withOperand o s fun v t => .next (t.setIp (addressOf v)) := rfl

theorem exec_nop (s : State) : exec .nop s = .next s := rfl

theorem exec_drs (s : State) : exec .drs s = .next s := rfl

theorem spData_mem_mayWrite_bst (n : Reg) : 8 ∈ mayWrite (.bst n) := indexRegister_mem_mayWrite rfl rfl

theorem spData_mem_mayWrite_hst (n : Reg) : 8 ∈ mayWrite (.hst n) := indexRegister_mem_mayWrite rfl rfl

/-- Every instruction answers a next state, in every state, and it is one of its ends. -/
theorem exec_answers (i : Instr) (s : State) : Answers i s (exec i s) := by
  cases i with
  | hia a o =>
    rw [exec_hia]
    exact answers_withOperand rfl fun u start _ range =>
      ⟨_, rfl, .computes start (by simp [mayWrite]) rfl range⟩
  | big a o =>
    rw [exec_big]
    exact answers_withOperand rfl fun u start _ _ => ⟨_, rfl, .stores start rfl rfl⟩
  | opt a o =>
    rw [exec_opt]
    exact answers_withOperand rfl fun u start _ _ =>
      answers_accumulate start (by simp [mayWrite]) rfl fun _ _ => fits_of_fitted
  | aft a o =>
    rw [exec_aft]
    exact answers_withOperand rfl fun u start _ _ =>
      answers_accumulate start (by simp [mayWrite]) rfl fun _ _ => fits_of_fitted
  | ver a o =>
    rw [exec_ver]
    exact answers_withOperand rfl fun u start _ _ =>
      answers_accumulate start (by simp [mayWrite]) rfl fun _ _ => fits_of_fitted
  | del a o =>
    rw [exec_del]
    exact answers_withOperand rfl fun u start _ _ =>
      answers_accumulate start (by simp [mayWrite]) rfl fun _ _ => fits_of_quotientOf
  | mod a o =>
    rw [exec_mod]
    exact answers_withOperand rfl fun u start _ _ =>
      answers_accumulate start (by simp [mayWrite]) rfl fun ranges _ =>
        fits_of_remainderOf (start.effect.regs_fit ranges.regs_fit a)
  | vgl a o =>
    rw [exec_vgl]
    exact answers_withOperand rfl fun u start _ _ => ⟨_, rfl, .tests start rfl⟩
  | spr o =>
    rw [exec_spr]
    exact answers_withOperand rfl fun u start _ _ => ⟨_, rfl, .jumps start⟩
  | vsp p o =>
    rw [exec_vsp]
    refine answers_withOperand rfl fun u start _ _ => ⟨_, rfl, ?_⟩
    split
    · exact .jumps start
    · exact .passes start
  | sbr o =>
    rw [exec_sbr]
    refine answers_withOperand rfl fun u start view _ => ?_
    by_cases h : Fits (u.reg 9 - 1)
    · have sp : u.reg 9 = regsAfterIndex o s 9 := congrFun (congrArg View.regs view) 9
      have cell : storesTo (.sbr o) s = some (addressOf (u.reg 9 - 1)) := by rw [sp]; rfl
      exact ⟨_, callOperation_of_fits _ h, .calls start (by simp [mayWrite, Config.spCall]) cell h⟩
    · exact ⟨_, callOperation_of_not_fits _ h, .faults start⟩
  | ktg =>
    by_cases h : Fits (s.reg 9 + 1)
    · exact ⟨_, exec_ktg_of_fits h, .jumps (.setReg (by decide) h)⟩
    · exact ⟨_, exec_ktg_of_not_fits h, .faults (.refl _ s)⟩
  | dru => exact ⟨_, exec_dru s, .emits (.inl rfl) fun ranges n same => OutToken.value.inj same ▸ ranges.regs_fit 0⟩
  | nwl => exact ⟨_, exec_nwl s, .emits (.inr rfl) fun _ _ same => nomatch same⟩
  | drs => exact ⟨_, exec_drs s, .passes (.refl _ s)⟩
  | nop => exact ⟨_, exec_nop s, .passes (.refl _ s)⟩
  | stp => exact ⟨_, exec_stp s, .halts rfl⟩
  | bst n =>
    by_cases h : Fits (s.reg 8 - 1)
    · exact ⟨_, exec_bst_of_fits h, .stores (.setReg (spData_mem_mayWrite_bst n) h) rfl rfl⟩
    · exact ⟨_, exec_bst_of_not_fits h, .faults (.refl _ s)⟩
  | hst n =>
    by_cases h : Fits (s.reg 8 + 1)
    · exact ⟨_, exec_hst_of_fits h, .computes (.setReg (spData_mem_mayWrite_hst n) h) (by simp [mayWrite]) rfl
        fun ranges => ranges.cells_fit _⟩
    · exact ⟨_, exec_hst_of_not_fits h, .faults (.refl _ s)⟩

theorem ends_of_exec {i : Instr} {s t : State} (h : exec i s = .next t) : Ends i s t := by
  obtain ⟨t', run, ends⟩ := exec_answers i s
  cases run.symm.trans h
  exact ends

end Sys2Proof.Machine

namespace Sys2Proof.Proofs

open Sys2Proof Sys2Proof.Machine

/-- Settles O55: every register an end writes is one the instruction may write. -/
theorem otherRegistersAreUnchanged : Obligations.OtherRegistersAreUnchanged := by
  intro i s t b run hb
  cases ends_of_exec run with
  | faults start | stores start | tests start | jumps start | passes start => exact start.others b hb
  | computes start target =>
    rw [State.setCC_reg, setReg_reg_of_not_mem _ _ target hb]
    exact start.others b hb
  | calls start target =>
    rw [State.setIp_reg, State.memWrite_reg, setReg_reg_of_not_mem _ _ target hb]
    exact start.others b hb
  | emits | halts => rfl

/-- Settles O56: the two ends that store do so at the cell of the table. -/
theorem otherCellsAreUnchanged : Obligations.OtherCellsAreUnchanged := by
  intro i s t a run ha
  cases ends_of_exec run with
  | faults start | computes start | tests start | jumps start | passes start =>
    obtain ⟨-, -, -, -, mem, -⟩ := start.effect.frame
    exact congrArg (Memory.read · a) mem
  | stores start cell | calls start _ cell =>
    obtain ⟨-, -, -, -, mem, -⟩ := start.effect.frame
    have other : a ≠ addressOf _ := fun same => ha (same ▸ cell)
    exact (Memory.read_write_other _ _ other).trans (congrArg (Memory.read · a) mem)
  | emits | halts => rfl

/-- Settles O57: each of the three is written by one kind of end, and only instructions of the table have it. -/
theorem flagsAndOutputHaveTheirWriters : Obligations.FlagsAndOutputHaveTheirWriters := by
  intro i s t run
  have grows {u : State} (out : u.out = s.out) : s.out <+: u.out := by rw [out]
  cases ends_of_exec run with
  | faults start | jumps start | passes start | calls start =>
    obtain ⟨-, cc, halted, -, -, out⟩ := start.effect.frame
    exact ⟨fun _ => cc, fun _ => halted, fun _ _ => out, grows out⟩
  | computes start _ flag | stores start _ flag | tests start flag =>
    obtain ⟨-, -, halted, -, -, out⟩ := start.effect.frame
    exact ⟨fun unlisted => absurd flag (by simp [unlisted]), fun _ => halted, fun _ _ => out, grows out⟩
  | emits op =>
    exact ⟨fun _ => rfl, fun _ => rfl, fun dru nwl => absurd op (not_or.mpr ⟨dru, nwl⟩), List.prefix_append _ _⟩
  | halts op => exact ⟨fun _ => rfl, fun other => absurd op other, fun _ _ => rfl, List.prefix_rfl⟩

end Sys2Proof.Proofs
end

section
/-!
The invariant (`10_state.md` R10, R11, R19, R21): every update of a value in `Val` keeps it, so every end of an
instruction does.
-/

namespace Sys2Proof.Machine

section Updates

variable {s : State} (h : s.Valid)

include h

theorem State.Valid.setReg {v : Int} (i : Reg) (hv : Fits v) : (s.setReg i v).Valid where
  mem_wf := h.mem_wf
  regs_fit := IndexEffect.regs_fit (.inr ⟨i, v, hv, rfl⟩) h.regs_fit
  cells_fit := h.cells_fit
  out_fits := h.out_fits
  one_condition := h.one_condition

theorem State.Valid.memWrite {v : Int} (n : Int) (hv : Fits v) : (s.memWrite n v).Valid where
  mem_wf := Memory.write_wf _ v h.mem_wf
  regs_fit := h.regs_fit
  cells_fit := Memory.write_fits _ hv h.cells_fit
  out_fits := h.out_fits
  one_condition := h.one_condition

theorem State.Valid.setCC (c : CondCode) : (s.setCC c).Valid :=
  ⟨h.mem_wf, h.regs_fit, h.cells_fit, h.out_fits, h.one_condition⟩

theorem State.Valid.setIp (t : Addr) : (s.setIp t).Valid :=
  ⟨h.mem_wf, h.regs_fit, h.cells_fit, h.out_fits, h.one_condition⟩

theorem State.Valid.emit {t : OutToken} (ht : ∀ n, t = .value n → Fits n) : (s.emit t).Valid where
  mem_wf := h.mem_wf
  regs_fit := h.regs_fit
  cells_fit := h.cells_fit
  out_fits n hn := by
    rcases List.mem_append.mp hn with old | new
    · exact h.out_fits n old
    · exact ht n (List.mem_singleton.mp new).symm
  one_condition := h.one_condition

/-- A machine that has not halted may fault. -/
theorem State.Valid.raise (f : Fault) (running : s.halted = false) : (s.raise f).Valid where
  mem_wf := h.mem_wf
  regs_fit := h.regs_fit
  cells_fit := h.cells_fit
  out_fits := h.out_fits
  one_condition both := absurd both.1 (by simp [running])

/-- A machine that has not faulted may halt. -/
theorem State.Valid.halt (running : s.fault = none) : s.halt.Valid where
  mem_wf := h.mem_wf
  regs_fit := h.regs_fit
  cells_fit := h.cells_fit
  out_fits := h.out_fits
  one_condition both := absurd both.2 (by simp [running])

theorem State.Valid.indexed {i : Instr} {u : State} (start : Indexed i s u) : u.Valid := by
  rcases start.effect with rfl | ⟨k, v, hv, rfl⟩
  · exact h
  · exact h.setReg k hv

/-- Every end of an instruction whose operand field is in range keeps the invariant. -/
theorem State.Valid.ends {i : Instr} {t : State} (running : s.Running)
    (disp : ∀ o, i.operand? = some o → Fits o.disp) (ends : Ends i s t) : t.Valid := by
  have ranges : InRange i s := ⟨disp, h.regs_fit, h.cells_fit⟩
  cases ends with
  | faults start =>
    obtain ⟨-, -, halted, -⟩ := start.effect.frame
    exact (h.indexed start).raise _ (halted.trans running.1)
  | computes start _ _ range => exact ((h.indexed start).setReg _ (range ranges)).setCC _
  | stores start => exact ((h.indexed start).memWrite _ ((h.indexed start).regs_fit _)).setCC _
  | tests start => exact (h.indexed start).setCC _
  | jumps start => exact (h.indexed start).setIp _
  | passes start => exact h.indexed start
  | calls start _ _ range =>
    exact (((h.indexed start).setReg _ range).memWrite _ (expandAddress_fits _)).setIp _
  | emits _ range => exact h.emit (range ranges)
  | halts => exact h.halt running.2

end Updates

/-- The reset state is valid: every value in it is 0. -/
theorem State.reset_valid : State.reset.Valid where
  mem_wf := rfl
  regs_fit i := by
    rw [State.reset_reg]
    decide
  cells_fit a := by
    rw [State.reset_mem_read]
    decide
  out_fits n hn := nomatch hn
  one_condition both := nomatch both.1

/-! ### The cycle -/

/-- A machine is running exactly when it is not stopped (R100). -/
theorem State.not_running_iff (s : State) : ¬s.Running ↔ s.stopped = true := by
  simp only [State.stopped, State.Running, Bool.or_eq_true, not_and_or, Bool.not_eq_false,
    Option.isSome_iff_ne_none, ne_eq]

/-- What a cycle does: nothing, a rejection after the advance, or an end of the decoded instruction after it (R100 to
R103). -/
theorem step_cases (s : State) :
    (¬s.Running ∧ step s = .next s) ∨
      (s.Running ∧ ∃ e, decode s.fetch = .error e ∧ step s = .next (s.advance.raise (Fault.ofDecode e))) ∨
      (s.Running ∧ ∃ i t, decode s.fetch = .ok i ∧ step s = .next t ∧ exec i s.advance = .next t ∧
        Ends i s.advance t) := by
  by_cases running : s.Running
  · refine .inr ?_
    cases decoded : decode s.fetch with
    | error e => exact .inl ⟨running, e, rfl, step_of_decode_error running decoded⟩
    | ok i =>
      obtain ⟨t, run, ends⟩ := exec_answers i s.advance
      exact .inr ⟨running, i, t, rfl, (step_of_decode_ok running decoded).trans run, run, ends⟩
  · exact .inl ⟨running, step_of_stopped (s.not_running_iff.mp running)⟩

/-- An end that does not fault halts the machine only if the instruction is the halt. -/
theorem Ends.halted {i : Instr} {s t : State} (running : s.Running) (ends : Ends i s t) :
    t.halted = true → i = .stp ∧ t.fault = none := by
  intro halts
  cases ends with
  | faults start | computes start | stores start | tests start | jumps start | passes start | calls start =>
    obtain ⟨-, -, halted, -⟩ := start.effect.frame
    exact absurd (halts.symm.trans (halted.trans running.1)) (by decide)
  | emits => exact absurd (halts.symm.trans running.1) (by decide)
  | halts op => exact ⟨op, running.2⟩

/-- The only end with a fault is the one that raises it, which has written nothing but registers. -/
theorem Ends.faulted {i : Instr} {s t : State} (running : s.Running) (ends : Ends i s t)
    (fault : t.fault.isSome = true) : t.view = { s.view with regs := t.reg, fault := t.fault } := by
  cases ends with
  | faults start =>
    obtain ⟨ip, cc, halted, -, mem, out⟩ := start.effect.frame
    simp only [State.view, State.raise_ip, State.raise_cc, State.raise_halted, State.raise_mem, State.raise_out, ip, cc,
      halted, mem, out]
  | computes start | stores start | tests start | jumps start | passes start | calls start =>
    obtain ⟨-, -, -, kept, -⟩ := start.effect.frame
    exact absurd fault (by simp [kept.trans running.2])
  | emits | halts => exact absurd fault (by simp [running.2])

end Sys2Proof.Machine

namespace Sys2Proof.Proofs

open Sys2Proof Sys2Proof.Machine

/-- Settles O3: a rejection raises on a machine that has not halted, and every end of an instruction whose word was
decoded keeps the invariant. -/
theorem everyStepKeepsValid : Obligations.EveryStepKeepsValid := by
  intro s t valid run
  have advanced : s.advance.Valid := valid.setIp _
  rcases step_cases s with ⟨-, stays⟩ | ⟨running, e, -, rejects⟩ | ⟨running, i, u, decoded, completes, -, ends⟩
  · cases stays.symm.trans run
    exact valid
  · cases rejects.symm.trans run
    exact advanced.raise _ running.1
  · cases completes.symm.trans run
    exact advanced.ends running (fun _ => decode_disp_fits decoded) ends

/-- Settles O12: the three conditions are the values of two flags, and only the end of STP sets `halted`. -/
theorem runningHaltedFaulted : Obligations.RunningHaltedFaulted := by
  refine ⟨⟨rfl, rfl⟩, fun s valid => ?conditions, fun s n stopped => ?absorbs, fun s running => ?goesOn⟩
  case conditions =>
    cases halted : s.halted with
    | false =>
      cases fault : s.fault with
      | none => exact .inl ⟨⟨halted, fault⟩, rfl, rfl⟩
      | some f => exact .inr (.inr ⟨fun running => (nomatch fault.symm.trans running.2), rfl, rfl⟩)
    | true =>
      cases fault : s.fault with
      | none => exact .inr (.inl ⟨fun running => (nomatch halted.symm.trans running.1), rfl, rfl⟩)
      | some f => exact absurd ⟨halted, by rw [fault]; rfl⟩ valid.one_condition
  case absorbs =>
    have stops := s.not_running_iff.mp stopped
    exact ⟨step_of_stopped stops, cycles_of_stopped stops n⟩
  case goesOn =>
    rcases step_cases s with ⟨stopped, -⟩ | ⟨-, e, rejected, run⟩ | ⟨-, i, t, decoded, run, exec, ends⟩
    · exact absurd running stopped
    · have notHalted : ¬(s.advance.raise (Fault.ofDecode e)).halted = true := by simp [running.1]
      exact ⟨_, run, ⟨fun halts => absurd halts notHalted, fun stp => nomatch rejected.symm.trans stp⟩,
        fun halts => absurd halts notHalted⟩
    · have onlyStp : t.halted = true → i = .stp ∧ t.fault = none := ends.halted (s := s.advance) running
      refine ⟨t, run, ⟨fun halts => ?_, fun stp => ?_⟩, fun halts => (onlyStp halts).2⟩
      · rw [decoded, (onlyStp halts).1]
      · cases decoded.symm.trans stp
        cases exec
        rfl

/-- Settles O14: a fault leaves memory and `ip` as the fetch and the advance did, so the cell before `ip` is the one
fetched. -/
theorem faultingCycleKeepsTheOffendingWord : Obligations.FaultingCycleKeepsTheOffendingWord := by
  intro s t running run fault
  have view : t.view = { s.advance.view with regs := t.reg, fault := t.fault } := by
    rcases step_cases s with ⟨stopped, -⟩ | ⟨-, e, -, rejects⟩ | ⟨-, i, u, -, completes, -, ends⟩
    · exact absurd running stopped
    · cases rejects.symm.trans run
      rfl
    · cases completes.symm.trans run
      exact ends.faulted running fault
  refine ⟨view, ?_⟩
  have ip : t.ip = addressOf ((s.ip.val : Int) + 1) := congrArg View.ip view
  have cells : t.mem.read = s.mem.read := congrArg View.cells view
  have back : addressOf ((t.ip.val : Int) - 1) = s.ip := by
    rw [ip, ← addressOf_of_val s.ip, addressOf_eq_iff, addressOf_val, addressOf_of_val]
    omega
  rw [State.memRead, State.fetch, cells, back]

/-- Settles O6: the step of a running machine is that of the decoded instruction, and `advance` sets `ip` alone. -/
theorem stepRunsTheDecodedInstruction : Obligations.StepRunsTheDecodedInstruction :=
  fun s _ running decoded => ⟨step_of_decode_ok running decoded, State.view_setIp s _⟩

/-- Settles O13: a raised fault is recorded, and with one recorded the machine is stopped. -/
theorem raiseRecordsTheCauseAndStops : Obligations.RaiseRecordsTheCauseAndStops := by
  intro s f
  have stopped : (s.raise f).stopped = true := by
    rw [State.stopped, State.raise_fault, Option.isSome_some, Bool.or_true]
  exact ⟨State.view_raise s f, step_of_stopped stopped⟩

/-- Settles O52: neither instruction changes the state it runs on, which is the advanced one. -/
theorem nopAndDrsOnlyAdvance : Obligations.NopAndDrsOnlyAdvance := by
  have nop (s : State) : EndsIn (exec .nop s) s.view := ⟨s, exec_nop s, rfl⟩
  have drs (s : State) : EndsIn (exec .drs s) s.view := ⟨s, exec_drs s, rfl⟩
  exact ⟨cycleOf_of_decodeAs (c := .nop) (fun _ => rfl) rfl nop, cycleOf_of_decodeAs (c := .drs) (fun _ => rfl) rfl drs,
    fun s => ⟨nop s, drs s⟩⟩

end Sys2Proof.Proofs
end

section
/-!
Reset and the load port (`10_state.md` R25, R26, R29; `70_reset_and_hazards.md` R182).
-/

namespace Sys2Proof.Machine

theorem State.load_cons (s : State) (a w : Int) (ps : List (Int × Int)) :
    s.load ((a, w) :: ps) = (s.memWrite a w).load ps := rfl

theorem State.load_append (s : State) (ps qs : List (Int × Int)) : s.load (ps ++ qs) = (s.load ps).load qs := by
  induction ps generalizing s with
  | nil => rfl
  | cons p ps ih => exact ih (s.memWrite p.1 p.2)

/-- Loading changes nothing but the cells. -/
theorem State.view_load (s : State) (ps : List (Int × Int)) :
    (s.load ps).view = { s.view with cells := (s.load ps).mem.read } := by
  induction ps generalizing s with
  | nil => rfl
  | cons p ps ih =>
    obtain ⟨a, w⟩ := p
    rw [State.load_cons, ih, State.view_memWrite]

theorem State.Valid.load {s : State} (h : s.Valid) {ps : List (Int × Int)} (hps : ∀ p ∈ ps, Fits p.2) :
    (s.load ps).Valid := by
  induction ps generalizing s with
  | nil => exact h
  | cons p ps ih =>
    obtain ⟨first, rest⟩ := List.forall_mem_cons.mp hps
    exact ih (h.memWrite p.1 first) rest

end Sys2Proof.Machine

namespace Sys2Proof.Proofs

open Sys2Proof Sys2Proof.Machine

/-- Settles O1: reset ignores the state it is applied to. -/
theorem resetPutsEveryPieceOfState : Obligations.ResetPutsEveryPieceOfState := by
  intro s
  have regs : State.reset.reg = fun _ => 0 := funext State.reset_reg
  refine ⟨rfl, ?_⟩
  rw [State.view, regs]
  rfl

/-- Settles O2. -/
theorem resetStateIsValid : Obligations.ResetStateIsValid := State.reset_valid

/-- Settles O4: the last pair is one `MemWrite` on the state the earlier ones left. -/
theorem loadPortWritesEachPairInOrder : Obligations.LoadPortWritesEachPairInOrder := by
  intro s ps a w
  refine ⟨rfl, ?_, State.view_load s ps⟩
  rw [State.load_append]
  exact State.view_memWrite _ a w

/-- Settles O5: loading keeps the invariant of the reset state, and neither flag is a cell. -/
theorem bootedMachineIsValid : Obligations.BootedMachineIsValid := by
  intro ps hps
  have view : (boot ps).view = _ := State.view_load State.reset ps
  exact ⟨State.reset_valid.load hps, congrArg View.halted view, congrArg View.fault view⟩

end Sys2Proof.Proofs
end

section
/-!
Memory as the machine sees it (`20_memory.md` R31, R42, R45) and its one form (log 7).
-/

namespace Sys2Proof.Machine

theorem Memory.wfFrom_cons {lo : Nat} {a : Addr} {v : Int} {m : Memory} :
    Memory.wfFrom lo ((a, v) :: m) = true ↔ lo ≤ a.val ∧ v ≠ 0 ∧ Memory.wfFrom (a.val + 1) m = true := by
  show _ ↔ _ ∧ v ≠ Memory.unlisted ∧ _
  simp only [Memory.wfFrom, Bool.and_eq_true, decide_eq_true_eq, and_assoc]

/-- A canonical memory reads 0 below its first address. -/
theorem Memory.read_of_lt {lo : Nat} {m : Memory} {a : Addr} (w : Memory.wfFrom lo m = true) (h : a.val < lo) :
    m.read a = 0 := by
  induction m generalizing lo with
  | nil => rfl
  | cons c rest ih =>
    obtain ⟨b, v⟩ := c
    obtain ⟨low, -, tail⟩ := Memory.wfFrom_cons.mp w
    have ne : a ≠ b := by
      rintro rfl
      omega
    rw [Memory.read_cons, if_neg ne]
    exact ih tail (by omega)

/-- A canonical memory that reads as another at the other's first address begins no later. -/
theorem Memory.head_le {lo lo' : Nat} {a b : Addr} {v u : Int} {m m' : Memory}
    (w : Memory.wfFrom lo ((a, v) :: m) = true) (w' : Memory.wfFrom lo' ((b, u) :: m') = true)
    (same : Memory.read ((a, v) :: m) b = Memory.read ((b, u) :: m') b) : a.val ≤ b.val := by
  obtain ⟨-, nonzero, -⟩ := Memory.wfFrom_cons.mp w'
  obtain ⟨-, listed, tail⟩ := Memory.wfFrom_cons.mp w
  by_contra later
  have unread : Memory.read ((a, v) :: m) b = 0 :=
    Memory.read_of_lt (Memory.wfFrom_cons.mpr ⟨Nat.le_refl a.val, listed, tail⟩) (by omega)
  rw [unread, Memory.read_cons, if_pos rfl] at same
  exact nonzero same.symm

theorem Memory.eq_of_read_eq {lo : Nat} {m m' : Memory} (w : Memory.wfFrom lo m = true)
    (w' : Memory.wfFrom lo m' = true) (same : ∀ a, m.read a = m'.read a) : m = m' := by
  induction m generalizing lo m' with
  | nil =>
    cases m' with
    | nil => rfl
    | cons c rest =>
      obtain ⟨-, nonzero, -⟩ := Memory.wfFrom_cons.mp w'
      have zero := same c.1
      rw [Memory.read_cons, if_pos rfl] at zero
      exact absurd zero.symm nonzero
  | cons c rest ih =>
    obtain ⟨a, v⟩ := c
    obtain ⟨low, nonzero, tail⟩ := Memory.wfFrom_cons.mp w
    cases m' with
    | nil =>
      have zero := same a
      rw [Memory.read_cons, if_pos rfl] at zero
      exact absurd zero nonzero
    | cons c' rest' =>
      obtain ⟨b, u⟩ := c'
      obtain ⟨-, -, tail'⟩ := Memory.wfFrom_cons.mp w'
      obtain rfl : a = b := Fin.ext
        (Nat.le_antisymm (Memory.head_le w w' (same b)) (Memory.head_le w' w (same a).symm))
      have first := same a
      rw [Memory.read_cons, Memory.read_cons, if_pos rfl, if_pos rfl] at first
      have rests : ∀ k, Memory.read rest k = Memory.read rest' k := by
        intro k
        by_cases head : k = a
        · rw [head, Memory.read_of_lt tail (Nat.lt_succ_self _), Memory.read_of_lt tail' (Nat.lt_succ_self _)]
        · have later := same k
          rwa [Memory.read_cons, Memory.read_cons, if_neg head, if_neg head] at later
      rw [first, ih tail tail' rests]

/-- A next state that ends in a view looks like it. -/
theorem EndsIn.view_eq {r : Result} {v : View} {t : State} (h : EndsIn r v) (run : r = .next t) : t.view = v := by
  obtain ⟨t', run', view⟩ := h
  cases run'.symm.trans run
  exact view

end Sys2Proof.Machine

namespace Sys2Proof.Proofs

open Sys2Proof Sys2Proof.Machine

/-- Settles O16: equal remainders are equal cells. -/
theorem readGivesTheLatestWrite : Obligations.ReadGivesTheLatestWrite := by
  intro s n v k
  refine ⟨fun same => ?_, fun other => ?_⟩
  · rw [State.memRead_memWrite, if_pos ((addressOf_eq_iff k n).mpr same)]
  · rw [State.memRead_memWrite, if_neg fun same => other ((addressOf_eq_iff k n).mp same)]

/-- Settles O17: the lists begin with the same cell, and their rests read the same. -/
theorem equalReadsAreEqualMemories : Obligations.EqualReadsAreEqualMemories :=
  fun _ _ => Memory.eq_of_read_eq

/-- Settles O18: BIG leaves `ip` alone, and its store is to the cell there. -/
theorem storedWordIsFetchedNext : Obligations.StoredWordIsFetchedNext := by
  intro a o s t resolvable atIp run
  have view := (bigStoresTheAccumulator.2 a o s resolvable).view_eq run
  have ip : t.ip = s.ip := congrArg View.ip view
  have cells : t.mem.read = Function.update s.mem.read (addressOf (resolvedOperand o s)) (regsAfterIndex o s a) :=
    congrArg View.cells view
  exact ⟨ip, by rw [State.fetch, cells, ip, ← atIp, Function.update_self]⟩

end Sys2Proof.Proofs
end

section
/-!
The accesses of a cycle (`20_memory.md` R38): the reads leave memory alone, and the writes listed are the ones made.
-/

namespace Sys2Proof.Machine

theorem foldl_valueReads (m : Interp) (a : Int) (s : State) (mem : Memory) :
    (valueReads m a s).foldl Access.apply mem = mem := by
  cases m <;> rfl

theorem valueReads_length (m : Interp) (a : Int) (s : State) : (valueReads m a s).length ≤ 2 := by
  cases m <;> simp [valueReads]

/-- The accesses of an operand-taking instruction account for memory when its operation's own do. -/
theorem withOperand_mem {o : Operand} {s t : State} {operation : Int → State → Result}
    {own : Int → State → List Access}
    (account : ∀ v u t, operation v u = .next t → t.mem = (own v u).foldl Access.apply u.mem)
    (run : withOperand o s operation = .next t) :
    t.mem = (operandAccesses o s own).foldl Access.apply s.mem := by
  rcases resolve_cases o s with ⟨a, u, effect, stage, resolved⟩ | ⟨u, fault, stage, resolved⟩
  · obtain ⟨-, -, -, -, mem, -⟩ := effect.frame
    simp only [withOperand, resolved] at run
    rw [operandAccesses, stage]
    simp only [List.foldl_append, foldl_valueReads]
    rw [← mem]
    exact account _ u t run
  · obtain ⟨-, -, -, -, mem, -⟩ := fault.frame
    simp only [withOperand, resolved] at run
    cases run
    rw [operandAccesses, stage]
    exact mem

theorem foldl_operandAccesses_noAccess (o : Operand) (s : State) (mem : Memory) :
    (operandAccesses o s noAccess).foldl Access.apply mem = mem := by
  rcases resolve_cases o s with ⟨a, u, -, stage, -⟩ | ⟨u, -, stage, -⟩
  · rw [operandAccesses, stage]
    simp only [List.foldl_append, foldl_valueReads, noAccess, List.foldl_nil]
  · rw [operandAccesses, stage]
    rfl

theorem operandAccesses_length {o : Operand} {s : State} {own : Int → State → List Access}
    (h : ∀ v u, (own v u).length ≤ 1) : (operandAccesses o s own).length ≤ 3 := by
  rcases resolve_cases o s with ⟨a, u, -, stage, -⟩ | ⟨u, -, stage, -⟩
  · have reads := valueReads_length o.interp a u
    have writes := h (valueStage o.interp a u) u
    rw [operandAccesses, stage]
    simp only [List.length_append]
    omega
  · rw [operandAccesses, stage]
    exact Nat.zero_le 3

theorem storeAccess_accounts (a : Reg) (v : Int) (u t : State)
    (run : (.next ((u.memWrite v (u.reg a)).setCC (sign (u.reg a))) : Result) = .next t) :
    t.mem = (storeAccess a v u).foldl Access.apply u.mem := by
  cases run
  rfl

theorem callAccess_accounts (v : Int) (u t : State) (run : callOperation v u = .next t) :
    t.mem = (callAccess v u).foldl Access.apply u.mem := by
  by_cases h : Fits (u.reg 9 - 1)
  · have store : callAccess v u = [.write (addressOf (u.reg 9 - 1)) (expandAddress u.ip)] := by
      have fitted : fit (u.reg Config.spCall - 1) = some (u.reg 9 - 1) := fit_of_fits h
      rw [callAccess, fitted]
    cases (callOperation_of_fits v h).symm.trans run
    rw [store]
    rfl
  · have none : callAccess v u = [] := by
      have overflow : fit (u.reg Config.spCall - 1) = none := fit_of_not_fits h
      rw [callAccess, overflow]
    cases (callOperation_of_not_fits v h).symm.trans run
    rw [none]
    rfl

theorem callAccess_length (v : Int) (u : State) : (callAccess v u).length ≤ 1 := by
  unfold callAccess
  split <;> simp

/-- An end of an instruction that stores nothing leaves memory as it is. -/
theorem Ends.mem_eq {i : Instr} {s t : State} (ends : Ends i s t) (h : storesTo i s = none) : t.mem = s.mem := by
  cases ends with
  | faults start | computes start | tests start | jumps start | passes start =>
    obtain ⟨-, -, -, -, mem, -⟩ := start.effect.frame
    exact mem
  | stores _ cell | calls _ _ cell => exact absurd (h.symm.trans cell) (by simp)
  | emits | halts => rfl

/-- The accesses listed for an instruction are what it does to memory. -/
theorem exec_mem {i : Instr} {s t : State} (run : exec i s = .next t) :
    t.mem = (instrAccesses i s).foldl Access.apply s.mem := by
  cases i with
  | big a o =>
    rw [exec_big] at run
    exact withOperand_mem (storeAccess_accounts a) run
  | bst n =>
    rw [exec_bst_eq_exec_big, exec_big] at run
    exact withOperand_mem (storeAccess_accounts n) run
  | sbr o =>
    rw [exec_sbr] at run
    exact withOperand_mem callAccess_accounts run
  | hia | opt | aft | ver | del | mod | vgl | spr | vsp | hst =>
    exact ((ends_of_exec run).mem_eq rfl).trans (foldl_operandAccesses_noAccess _ s _).symm
  | ktg | dru | nwl | drs | nop | stp => exact (ends_of_exec run).mem_eq rfl

theorem instrAccesses_length (i : Instr) (s : State) : (instrAccesses i s).length ≤ 3 := by
  cases i with
  | big | bst => exact operandAccesses_length fun _ _ => Nat.le_refl 1
  | sbr => exact operandAccesses_length callAccess_length
  | hia | opt | aft | ver | del | mod | vgl | spr | vsp | hst => exact operandAccesses_length fun _ _ => Nat.zero_le 1
  | ktg | dru | nwl | drs | nop | stp => simp [instrAccesses]

theorem accesses_of_stopped {s : State} (h : ¬s.Running) : s.accesses = [] := by
  rw [State.accesses, if_pos (s.not_running_iff.mp h)]

theorem accesses_of_decode_error {s : State} {e : DecodeError} (hs : s.Running) (h : decode s.fetch = .error e) :
    s.accesses = [.read s.ip] := by
  simp [State.accesses, hs.not_stopped, h]

theorem accesses_of_decode_ok {s : State} {i : Instr} (hs : s.Running) (h : decode s.fetch = .ok i) :
    s.accesses = .read s.ip :: instrAccesses i s.advance := by
  simp [State.accesses, hs.not_stopped, h]

end Sys2Proof.Machine

namespace Sys2Proof.Proofs

open Sys2Proof Sys2Proof.Machine

/-- Settles O19: the fetch is a read, and the instruction's accesses account for what it does from the advanced state,
whose memory is the same. -/
theorem accessesAccountForMemory : Obligations.AccessesAccountForMemory := by
  refine ⟨fun s t run => ?account, fun s running => ?count⟩
  case account =>
    rcases step_cases s with ⟨stopped, stays⟩ | ⟨running, e, rejected, raises⟩ | ⟨running, i, u, decoded, next, exec, -⟩
    · cases stays.symm.trans run
      rw [accesses_of_stopped stopped]
      rfl
    · cases raises.symm.trans run
      rw [accesses_of_decode_error running rejected]
      rfl
    · cases next.symm.trans run
      rw [accesses_of_decode_ok running decoded]
      exact exec_mem exec
  case count =>
    cases decoded : decode s.fetch with
    | error e => simp [accesses_of_decode_error running decoded]
    | ok i =>
      have rest := instrAccesses_length i s.advance
      rw [accesses_of_decode_ok running decoded, List.length_cons]
      exact ⟨rfl, by omega, by omega⟩

end Sys2Proof.Proofs
end

section
/-!
Division (`42_arithmetic.md` R128, R129, decisions D10 and D11): the quotient truncated toward zero and its remainder.
-/

namespace Sys2Proof.Machine

theorem quotientOf_zero (x : Int) : quotientOf x 0 = .error .divideByZero := if_pos rfl

theorem quotientOf_of_fits {x v : Int} (hv : v ≠ 0) (h : Fits (Int.tdiv x v)) :
    quotientOf x v = .ok (Int.tdiv x v) := by
  rw [quotientOf, if_neg hv, fitted_of_fits h]

theorem quotientOf_of_not_fits {x v : Int} (hv : v ≠ 0) (h : ¬Fits (Int.tdiv x v)) :
    quotientOf x v = .error .arithmeticOverflow := by
  rw [quotientOf, if_neg hv, fitted_of_not_fits h]

theorem remainderOf_zero (x : Int) : remainderOf x 0 = .error .divideByZero := if_pos rfl

theorem remainderOf_valMin_neg_one : remainderOf Config.valMin (-1) = .error .arithmeticOverflow := by
  rw [remainderOf, if_neg (by decide), if_pos ⟨rfl, rfl⟩]

theorem remainderOf_of_fits {x v : Int} (hv : v ≠ 0) (h : ¬(x = Config.valMin ∧ v = -1)) :
    remainderOf x v = .ok (Int.tmod x v) := by
  rw [remainderOf, if_neg hv, if_neg h]

/-- The quotient of values in `Val` leaves `Val` only for `VAL_MIN` by -1: by 1 and -1 it is the dividend and its
negation, by any other divisor it is at most half the dividend. -/
theorem fits_tdiv {x v : Int} (hx : Fits x) (h : ¬(x = Config.valMin ∧ v = -1)) : Fits (Int.tdiv x v) := by
  obtain ⟨low, high⟩ := hx
  by_cases one : v = 1
  · rw [one, Int.tdiv_one]
    exact ⟨low, high⟩
  · by_cases negOne : v = -1
    · have : x ≠ Config.valMin := fun least => h ⟨least, negOne⟩
      rw [negOne, Int.tdiv_neg, Int.tdiv_one]
      simp only [Fits, Config.valMin, Config.valMax] at *
      omega
    · have half : (Int.tdiv x v).natAbs ≤ x.natAbs / 2 := by
        by_cases zero : v = 0
        · simp [zero]
        · rw [Int.natAbs_tdiv]
          exact Nat.div_le_div_left (by omega) (by decide)
      simp only [Fits, Config.valMin, Config.valMax] at *
      omega

theorem sign_tmod (x v : Int) : Int.tmod x v = 0 ∨ sign (Int.tmod x v) = sign x := by
  have above := Int.tmod_nonneg (a := x) v
  have below := tmod_nonpos (x := x) v
  by_cases zero : Int.tmod x v = 0
  · exact .inl zero
  · refine .inr ?_
    rcases Int.lt_trichotomy x 0 with neg | rfl | pos
    · have := below neg.le
      rw [sign, sign, if_neg (by omega), if_neg (by omega), if_neg (by omega), if_neg (by omega)]
    · exact absurd (Int.zero_tmod v) zero
    · have := above pos.le
      rw [sign, sign, if_pos (by omega), if_pos pos]

theorem abs_tmod_lt (x : Int) {v : Int} (hv : v ≠ 0) : |Int.tmod x v| < |v| := by
  have size : (Int.tmod x v).natAbs < v.natAbs := by
    rw [Int.natAbs_tmod]
    exact Nat.mod_lt _ (by omega)
  rw [Int.abs_eq_natAbs, Int.abs_eq_natAbs]
  omega

end Sys2Proof.Machine

namespace Sys2Proof.Proofs

open Sys2Proof Sys2Proof.Machine

/-- Settles O41: the three results of the quotient, on the accumulator as the indexation stage left it. -/
theorem delDivides : Obligations.DelDivides := by
  refine ⟨selectedBy_of_decodeAs (c := .del) fun _ => rfl, fun a o s h => ?_⟩
  rw [exec_del]
  refine ⟨fun zero => ?zero, fun divisor fits => ?quotient, fun divisor overflow => ?overflow⟩
  case zero => exact endsIn_accumulate_of_error h (zero ▸ quotientOf_zero _)
  case quotient => exact endsIn_accumulate_of_ok h (quotientOf_of_fits divisor fits)
  case overflow => exact endsIn_accumulate_of_error h (quotientOf_of_not_fits divisor overflow)

/-- Settles O42: the three results of the remainder; it is the dividend less the divisor times the quotient. -/
theorem modTakesTheRemainder : Obligations.ModTakesTheRemainder := by
  refine ⟨selectedBy_of_decodeAs (c := .mod) fun _ => rfl, fun a o s h => ?_⟩
  rw [exec_mod]
  refine ⟨fun zero => ?zero, fun negOne least => ?overflow, fun divisor defined => ?remainder⟩
  case zero => exact endsIn_accumulate_of_error h (zero ▸ remainderOf_zero _)
  case overflow =>
    refine endsIn_accumulate_of_error h ?_
    rw [negOne, least]
    exact remainderOf_valMin_neg_one
  case remainder =>
    rw [← Int.tmod_def]
    exact endsIn_accumulate_of_ok h (remainderOf_of_fits divisor fun both => defined both.symm)

/-- Settles O43: both results are those of one truncated division. -/
theorem quotientAndRemainderMatch : Obligations.QuotientAndRemainderMatch := by
  intro x v hx hv
  refine ⟨?zero, ?overflow, fun divisor defined => ?division⟩
  case zero =>
    rintro rfl
    exact ⟨quotientOf_zero x, remainderOf_zero x⟩
  case overflow =>
    rintro rfl rfl
    exact ⟨quotientOf_of_not_fits (by decide) (by decide), remainderOf_valMin_neg_one⟩
  case division =>
    have quotient := fits_tdiv hx defined
    exact ⟨_, _, quotientOf_of_fits divisor quotient, remainderOf_of_fits divisor defined,
      (Int.mul_tdiv_add_tmod x v).symm, abs_tmod_lt x divisor, sign_tmod x v, quotient, fits_tmod v hx⟩

end Sys2Proof.Proofs
end

section
/-!
Jumps, and the indexation stage's overflow (`43_compare_branch.md` R136, R138, R140; `44_subroutine.md` R144;
`40_cycle_decode_resolve.md` R107, R109).
-/

namespace Sys2Proof.Machine

theorem endsIn_spr {o : Operand} {s : State} (h : Resolvable o s) :
    EndsIn (exec (.spr o) s)
      { s.view with regs := regsAfterIndex o s, ip := addressOf (resolvedOperand o s) } := by
  rw [exec_spr]
  refine endsIn_withOperand h fun t view => ⟨_, rfl, ?_⟩
  rw [State.view_setIp, view]

/-- The operand of the jump to the cell `t`. -/
def jumpOperand (t : Addr) : Operand := ⟨.address, .none, expandAddress t⟩

theorem encode_jump (t : Addr) : encode (.spr (jumpOperand t)) = 3221990000 + (t.val : Int) := by
  have digits : encode (.spr (jumpOperand t)) =
      32 * 10 ^ 8 + 2 * 10 ^ 7 + 1 * 10 ^ 6 + 9 * 10 ^ 5 + 9 * 10 ^ 4 +
        ((addressOf (expandAddress t)).val : Int) := rfl
  rw [addressOf_expandAddress] at digits
  omega

theorem jump_wellFormed (t : Addr) : (Instr.spr (jumpOperand t)).wellFormed = true := by
  obtain ⟨-, -, low, high⟩ := Proofs.expandAddressRestoresTheSign t
  simp [Instr.wellFormed, Operand.inRange, jumpOperand, low, high]

/-- A core instruction that takes an operand resolves it and then runs its operation (R101). -/
theorem exec_eq_withOperand {i : Instr} {o : Operand} (ho : i.operand? = some o) (core : i.expand = i) (s : State) :
    ∃ operation, exec i s = withOperand o s operation := by
  cases i with
  | hia | big | opt | aft | ver | del | mod | vgl | spr | vsp | sbr =>
    cases ho
    exact ⟨_, rfl⟩
  | ktg | dru | nwl | drs | nop | stp => cases ho
  | bst | hst => cases core

end Sys2Proof.Machine

namespace Sys2Proof.Proofs

open Sys2Proof Sys2Proof.Machine

/-- Settles O31: the operation, whichever it is, is not reached. -/
theorem indexationOverflowFaults : Obligations.IndexationOverflowFaults := by
  intro i o s ho core overflow
  obtain ⟨operation, run⟩ := exec_eq_withOperand ho core s
  obtain ⟨t, fault, view⟩ := resolve_of_not_resolvable overflow
  exact ⟨t, by rw [run, withOperand, fault], view⟩

/-- Settles O33: both are the same stage with the same change of the register. -/
theorem postDecrementActsAsPostIncrement : Obligations.PostDecrementActsAsPostIncrement := by
  intro d k s
  have change : Config.postDecDelta = 1 := rfl
  rw [indexStage, indexStage, change]

/-- Settles O45: the operation sets `ip` alone. -/
theorem sprJumps : Obligations.SprJumps :=
  ⟨selectedBy_of_decodeAs (c := .spr) fun _ => rfl, fun _ _ => endsIn_spr⟩

/-- Settles O47: the eighteen entries, computed. -/
theorem predicateTruthTable : Obligations.PredicateTruthTable := by
  unfold Obligations.PredicateTruthTable
  decide

/-- Settles O48: the word is that of a jump whose operand is the cell's number read signed, which every cell has. -/
theorem directJumpReachesEveryCell : Obligations.DirectJumpReachesEveryCell := by
  intro s t running word
  have decoded : decode s.fetch = .ok (.spr (jumpOperand t)) := by
    rw [word, ← encode_jump, decodeUndoesEncode _ (jump_wellFormed t)]
  have target : addressOf (resolvedOperand (jumpOperand t) s.advance) = t := by
    have value : resolvedOperand (jumpOperand t) s.advance = expandAddress t % 10000 := rfl
    rw [value, ← addressOf_val, addressOf_of_val, addressOf_expandAddress]
  have ends := endsIn_spr (o := jumpOperand t) (s := s.advance) trivial
  rw [target] at ends
  rw [step_of_decode_ok running decoded]
  exact ends

/-- Settles O51: the return adds back what the call took from `x[9]` and reads the cell the call wrote. -/
theorem returnUndoesCall : Obligations.ReturnUndoesCall := by
  intro o s resolvable sp below
  obtain ⟨t, call, called⟩ := (sbrCalls.2 o s resolvable).1 below
  have regs : t.reg = Function.update (regsAfterIndex o s) 9 (regsAfterIndex o s 9 - 1) := congrArg View.regs called
  have cells : t.mem.read = Function.update s.mem.read (addressOf (regsAfterIndex o s 9 - 1)) (expandAddress s.ip) :=
    congrArg View.cells called
  have pointer : t.reg 9 = regsAfterIndex o s 9 - 1 := by rw [regs, Function.update_self]
  have back : t.reg 9 + 1 = regsAfterIndex o s 9 := by omega
  obtain ⟨u, ret, returned⟩ := (ktgReturns.2 t).1 (back ▸ sp)
  refine ⟨t, u, call, ret, ?regs, ?ip, ?cc, ?out⟩
  case regs =>
    have restored : u.reg = Function.update t.reg 9 (t.reg 9 + 1) := congrArg View.regs returned
    rw [restored, back, regs, Function.update_idem, Function.update_eq_self]
  case ip =>
    have target : u.ip = addressOf (t.mem.read (addressOf (t.reg 9))) := congrArg View.ip returned
    rw [target, pointer, cells, Function.update_self, addressOf_expandAddress]
  case cc => exact (congrArg View.cc returned).trans (congrArg View.cc called)
  case out => exact (congrArg View.out returned).trans (congrArg View.out called)

end Sys2Proof.Proofs
end

section
/-!
The assembler's words (`30_encoding.md` R79 to R92): the fields of every form decode, and the register form of R91 is
plain indexation.
-/

namespace Sys2Proof.Asm

/-! ### What the forms write -/

/-- Fields as the assembler writes them: an operand's, or the sentinel's. -/
def Written (f : Fields) : Prop :=
  (∃ c acc o, f = operandFields c acc o) ∨ ∃ c : Opcode, c.kind = .zeroOperand ∧ f = zeroOperandFields c

theorem written_operandFields (c : Opcode) (acc : Fin 10) (o : Operand) : Written (operandFields c acc o) :=
  .inl ⟨c, acc, o, rfl⟩

theorem exists_of_bind_eq_ok {ε α β : Type} {r : Except ε α} {g : α → Except ε β} {b : β} (h : r.bind g = .ok b) :
    ∃ a, r = .ok a ∧ g a = .ok b := by
  cases r with
  | error e => cases h
  | ok a => exact ⟨a, rfl, h⟩

section Forms

variable {ev : Evaluator} {b : Bindings} {c : Opcode} {f : Fields}

theorem written_of_registerSugar {s : Option Suffix} {n k : Reg} (h : registerSugar c s n k = .ok f) : Written f := by
  unfold registerSugar at h
  split at h
  · split at h
    · cases h
    · cases h
      exact written_operandFields _ _ _
  · cases h
  · cases h

theorem written_of_zeroForm {arg : Text} (kind : c.kind = .zeroOperand) (h : zeroForm c arg = .ok f) : Written f := by
  unfold zeroForm at h
  split at h
  · cases h
    exact .inr ⟨c, kind, rfl⟩
  · cases h

theorem written_of_singleForm {s : Option Suffix} {arg : Text} (h : singleForm ev b c s arg = .ok f) : Written f := by
  unfold singleForm at h
  split at h
  · cases h
  · obtain ⟨m, -, evaluated⟩ := exists_of_bind_eq_ok h
    obtain ⟨v, -, rfl⟩ := exists_of_map_eq_ok evaluated
    exact written_operandFields _ _ _

theorem written_of_twoOperands {s : Option Suffix} {left right : Text}
    (h : twoOperands ev b c s left right = .ok f) : Written f := by
  unfold twoOperands at h
  split at h
  · cases h
  · split at h
    · exact written_of_registerSugar h
    · obtain ⟨m, -, parsed⟩ := exists_of_bind_eq_ok h
      obtain ⟨o, -, rfl⟩ := exists_of_map_eq_ok parsed
      exact written_operandFields _ _ _

theorem written_of_twoForm {s : Option Suffix} {arg : Text} (h : twoForm ev b c s arg = .ok f) : Written f := by
  unfold twoForm at h
  split at h
  · cases h
  · split at h
    · cases h
    · split at h
      · cases h
      · exact written_of_twoOperands h

theorem written_of_coreForm {s : Option Suffix} {arg : Text} (h : coreForm ev b c s arg = .ok f) : Written f := by
  unfold coreForm at h
  split at h
  · next kind => exact written_of_zeroForm kind h
  · exact written_of_twoForm h
  · split at h
    · exact written_of_singleForm h
    · exact written_of_twoForm h

theorem written_of_macroForm {o : Operand} {s : Option Text} {arg : Text} (h : macroForm c o s arg = .ok f) :
    Written f := by
  unfold macroForm at h
  split at h
  · cases h
  · split at h
    · cases h
    · split at h
      · cases h
      · cases h
        exact written_operandFields _ _ _

theorem written_of_instrFields {op : SourceOp} {s : Option Text} {arg : Text}
    (h : instrFields ev b op s arg = .ok f) : Written f := by
  cases op with
  | push | pop => exact written_of_macroForm h
  | core c =>
    obtain ⟨x, -, formed⟩ := exists_of_bind_eq_ok h
    exact written_of_coreForm formed

end Forms

/-- A word of written fields decodes, but for a conditional jump with a bad predicate digit. -/
theorem Written.decodes {f : Fields} (h : Written f) :
    (∃ i, decode (pack f) = .ok i) ∨ (f.op = 33 ∧ decode (pack f) = .error .badPredicate) := by
  rcases h with ⟨c, acc, o, rfl⟩ | ⟨c, kind, rfl⟩
  · rw [decode, decodeCore_pack_operandFields]
    rcases decodeAs_of_operand (c := c) (decodeOperand_operandFields c acc o.reduced) with
      ⟨i, decoded⟩ | ⟨rfl, -, bad⟩
    · exact .inl ⟨i.tableName, by rw [decoded, Except.map]⟩
    · exact .inr ⟨rfl, by rw [bad, Except.map]⟩
  · obtain ⟨i, -, decoded⟩ := decodeAs_zeroOperand kind
    exact .inl ⟨i.tableName, by rw [decode, decodeCore_pack_zeroOperandFields, decoded, Except.map]⟩

/-! ### Two bare registers (R91) -/

/-- The character of a register's digit. -/
def digitChar (i : Reg) : Char := Char.ofNat (48 + i.val)

theorem isSpace_digitChar (i : Reg) : isSpace (digitChar i) = false := by
  revert i
  decide

theorem digitChar_ne_comma (i : Reg) : digitChar i ≠ ',' := by
  revert i
  decide

theorem parseReg_digitChar (i : Reg) : parseReg ['R', digitChar i] = some i := by
  revert i
  decide

theorem isSpace_blank : isSpace ' ' = true := rfl

theorem trim_eq_self {c d : Char} {t : Text} (first : isSpace c = false) (last : isSpace d = false) :
    trim (c :: (t ++ [d])) = c :: (t ++ [d]) := by
  simp [trim, first, last]

theorem trim_blank (t : Text) : trim (' ' :: t) = trim t := by
  rw [trim, List.dropWhile_cons_of_pos isSpace_blank, trim]

/-- A token without white space, a blank, and a remainder with neither end white. -/
theorem firstToken_append {token : Text} {c d : Char} {t : Text} (plain : ∀ x ∈ token, isSpace x = false)
    (first : isSpace c = false) (last : isSpace d = false) :
    firstToken (token ++ ' ' :: c :: (t ++ [d])) = (token, c :: (t ++ [d])) := by
  have word : ∀ x ∈ token, (!isSpace x) = true := fun x hx => by rw [plain x hx, Bool.not_false]
  rw [firstToken, List.takeWhile_append_of_pos word, List.dropWhile_append_of_pos word]
  simp only [List.takeWhile_cons, List.dropWhile_cons, isSpace_blank, Bool.not_true, Bool.false_eq_true, if_false,
    List.append_nil, trim_blank, trim_eq_self first last]

section Sugar

variable {ev : Evaluator} {b : Bindings} (i j : Reg)

/-- The two-operand form of a left register and a right text without white ends. -/
theorem twoForm_register {c : Opcode} {s : Option Suffix} {x y : Char} {t : Text} (first : isSpace x = false)
    (last : isSpace y = false) :
    twoForm ev b c s ('R' :: digitChar i :: ',' :: ' ' :: x :: (t ++ [y])) =
      twoOperands ev b c s ['R', digitChar i] (x :: (t ++ [y])) := by
  have right : trim (' ' :: x :: (t ++ [y])) = x :: (t ++ [y]) := by rw [trim_blank, trim_eq_self first last]
  have left : trim ['R', digitChar i] = ['R', digitChar i] :=
    trim_eq_self (t := []) rfl (isSpace_digitChar i)
  simp [twoForm, digitChar_ne_comma, left, right]

theorem twoOperands_registers :
    twoOperands ev b .hia none ['R', digitChar i] ['R', digitChar j] =
      .ok (operandFields .hia i ⟨.value, .plain j, 0⟩) := by
  simp only [twoOperands, parseReg_digitChar]
  rfl

theorem operandGroup_plain : operandGroup ['0', '(', 'R', digitChar j, ')'] = .ok (.plain j) := by
  have inner : trim ['R', digitChar j] = ['R', digitChar j] :=
    trim_eq_self (t := []) rfl (isSpace_digitChar j)
  simp [operandGroup, inner, parseGroup, groupReg, parseReg_digitChar, Except.map]

theorem twoOperands_indexed (zero : ev ['0'] b = some 0) :
    twoOperands ev b .hia (some .w) ['R', digitChar i] ['0', '(', 'R', digitChar j, ')'] =
      .ok (operandFields .hia i ⟨.value, .plain j, 0⟩) := by
  have expression : trim ['0'] = ['0'] := by decide
  have operand : parseOperand ev b .value ['0', '(', 'R', digitChar j, ')'] = .ok ⟨.value, .plain j, 0⟩ := by
    rw [parseOperand, operandGroup_plain]
    simp [Except.bind, Except.map, evalExpr, expression, zero]
  have notRegister : parseReg ['0', '(', 'R', digitChar j, ')'] = none := rfl
  have interp : lineInterp Opcode.hia.kind (some .w) = .ok .value := rfl
  simp only [twoOperands, parseReg_digitChar, notRegister, interp, Except.bind, operand, Except.map]

/-- A line whose token names an operation is an instruction line (R79). -/
theorem encodeLine_of_op {line token arg name : Text} {suffix : Option Text} {op : SourceOp}
    (first : firstToken line = (token, arg)) (split : splitSuffix token = (name, suffix))
    (known : lookupOp name = some op) :
    encodeLine ev b line = (instrFields ev b op suffix arg).map pack := by
  simp only [encodeLine, first, split, known]

/-- A load line whose fields are those of an operand assembles to the load's word. -/
theorem encodeLine_hia {line token arg : Text} {suffix : Option Text} {o : Operand}
    (first : firstToken line = (token, arg)) (split : splitSuffix token = (['H', 'I', 'A'], suffix))
    (fields : instrFields ev b (.core .hia) suffix arg = .ok (operandFields .hia i o)) :
    encodeLine ev b line = .ok (encode (.hia i o)) := by
  have known : lookupOp ['H', 'I', 'A'] = some (.core .hia) := by decide
  rw [encodeLine_of_op first split known, fields]
  rfl

end Sugar

end Sys2Proof.Asm

namespace Sys2Proof.Proofs

open Sys2Proof Sys2Proof.Machine

/-- Settles O59: every form writes the modes of an operand or a zero-operand opcode. -/
theorem assembledInstructionsDecode : Obligations.AssembledInstructionsDecode :=
  fun _ _ _ _ _ _ h => (Asm.written_of_instrFields h).decodes

/-- Settles O58: both lines have the operation HIA, and both right operands are plain indexation with operand 0. -/
theorem registerSugarIsPlainIndexing : Obligations.RegisterSugarIsPlainIndexing := by
  intro ev b i j zero
  have digit := Asm.isSpace_digitChar
  have hia : ∀ x ∈ ['H', 'I', 'A'], Asm.isSpace x = false := by simp [Asm.isSpace, Char.isWhitespace]
  have hiaW : ∀ x ∈ ['H', 'I', 'A', '.', 'w'], Asm.isSpace x = false := by simp [Asm.isSpace, Char.isWhitespace]
  refine ⟨?registers, ?indexed⟩
  case registers =>
    have right := Asm.twoForm_register (ev := ev) (b := b) (c := .hia) (s := none) i (t := []) (x := 'R') rfl (digit j)
    exact Asm.encodeLine_hia i
      (Asm.firstToken_append (t := [Asm.digitChar i, ',', ' ', 'R']) hia rfl (digit j)) rfl
      (right.trans (Asm.twoOperands_registers i j))
  case indexed =>
    have right := Asm.twoForm_register (ev := ev) (b := b) (c := .hia) (s := some .w) i
      (t := ['(', 'R', Asm.digitChar j]) (x := '0') (y := ')') rfl rfl
    exact Asm.encodeLine_hia i
      (Asm.firstToken_append (t := [Asm.digitChar i, ',', ' ', '0', '(', 'R', Asm.digitChar j]) (d := ')')
        hiaW rfl rfl)
      (suffix := some ['w']) rfl (right.trans (Asm.twoOperands_indexed i j zero))

end Sys2Proof.Proofs
end
